-- ==== Sys2Proof/Word.lean ====
section
/-! DEFINITION. The word types of the hardware (00_scope.md rule R4). Widths only: byte order and
field arithmetic stand in Machine/Bytes.lean and Machine/Field.lean. -/

namespace Sys2Proof

/-- One byte of a command, a response or an operand. -/
abbrev Byte := BitVec 8

/-- A byte string, first byte in transmission order first (00_scope.md section 3). -/
abbrev Bytes := List Byte

/-- A 64-bit word, W = 64 (rule R4). -/
abbrev Word64 := BitVec 64

/-- A field element, N = 128 bits; bit i is the coefficient of x^i (rules R4, R6, R10). -/
abbrev Elem := BitVec 128

/-- The 256-bit input of the reduction unit (rule R4). -/
abbrev Wide := BitVec 256

end Sys2Proof
end

