-- ==== Sys2Proof/Machine/Bytes.lean ====
section
/-! DEFINITION. Byte order (20_memory.md rules R27 to R29): `le_n` and `bytes_n` of 00_scope.md
section 3, and substrings. Little-endian everywhere, with no way to switch it. -/

namespace Sys2Proof

/-- `sum over k of b[k] * 2^(8k)` (00_scope.md section 3). -/
def leNat : Bytes → Nat
  | [] => 0
  | b :: bs => b.toNat + 256 * leNat bs

/-- `le_n(b)`, the little-endian value of a byte string at width n (00_scope.md section 3). -/
def le (n : Nat) (b : Bytes) : BitVec n := BitVec.ofNat n (leNat b)

/-- `bytes_n(v)`, the inverse of `le_n`: byte k is `v[8k+7:8k]` (00_scope.md section 3, rule R27). -/
def bytesOf {n : Nat} (v : BitVec n) : Bytes :=
  (List.range (n / 8)).map fun k => v.extractLsb' (8 * k) 8

/-- `b[i..j]`: bytes i up to but not including j (00_scope.md section 3). -/
def slice (b : Bytes) (i j : Nat) : Bytes := (b.take j).drop i

end Sys2Proof
end

