-- ==== Sys2Proof/Syntax.lean ====
section
/-! DEFINITION. The commands: one constructor for each of the eleven rows of spec/opcode_table.json
(30_encoding.md rule R41). A command carries its payload as the host sent it; cutting it into
operands belongs to the command's own rule (rules R40, R44). -/

namespace Sys2Proof

/-- The eleven commands (rule R41), each with its payload. -/
inductive Instr where
  /-- 0x01, `New(key)` (rule R70). -/
  | init (payload : Bytes)
  /-- 0x02, `Update(block)` (rule R71). -/
  | update (payload : Bytes)
  /-- 0x03, `Sum(buffer)` (rule R72). -/
  | sum (payload : Bytes)
  /-- 0x04, `BlockSize()` (rule R73). -/
  | blocksize (payload : Bytes)
  /-- 0x05, state export (rule R78). -/
  | save (payload : Bytes)
  /-- 0x06, state import (rule R79). -/
  | restore (payload : Bytes)
  /-- 0x07, the status byte (rule R74). -/
  | status (payload : Bytes)
  /-- 0x10, `ctmul(x, y)` (rule R50). -/
  | clmul64 (payload : Bytes)
  /-- 0x11, the reduction (rule R58). -/
  | reduce (payload : Bytes)
  /-- 0x12, `multiply(a, b)` (rule R61). -/
  | mul (payload : Bytes)
  /-- 0x13, `double(a)` (rule R64). -/
  | double (payload : Bytes)
deriving DecidableEq, Repr

/-- The payload of a command (rule R25). -/
def Instr.payload : Instr → Bytes
  | .init p => p
  | .update p => p
  | .sum p => p
  | .blocksize p => p
  | .save p => p
  | .restore p => p
  | .status p => p
  | .clmul64 p => p
  | .reduce p => p
  | .mul p => p
  | .double p => p

end Sys2Proof
end

