-- ==== Sys2Proof/Config.lean ====
section
/-! DEFINITION. The parameters of the block (00_scope.md rules R4, R5): the payload bound of
the frame, and the one parameter the spec leaves open, STATE_TAG. The other fixed sizes of rule R4
(N, W, BLOCK, KEYLEN) are widths of types and lengths in each command's own rule. LATENCY is not modelled (rule R105). -/

namespace Sys2Proof

/-- A payload has at most 2^32 - 1 bytes (20_memory.md rule R25): its length is below this bound. -/
def Config.payloadBound : Nat := 4294967296

/-- TAG_LEN, open (44_state_serialization.md rule R77, decision D13), with no body. Its type keeps
TAG_LEN + 32 a 32-bit length, as rules R37 and R79 have it: the LEN field of RESTORE is TAG_LEN + 32
(UNVERIFIED, assumption 2). -/
opaque Config.tagLen : Fin 4294967264

/-- The bytes of STATE_TAG, open (rule R77, decision D13), with no body (assumption 2). -/
opaque Config.tagByte : Nat → Byte

/-- STATE_TAG: one fixed byte string of fixed length TAG_LEN (rules R5, R77). -/
def Config.stateTag : Bytes := (List.range Config.tagLen.val).map Config.tagByte

end Sys2Proof
end

