-- ==== Sys2Proof/WellFormed.lean ====
section
/-! DEFINITION. Which commands can be presented at all. The one check is the length bound of
20_memory.md rule R25. A length that a command does not accept is a defined command that answers
with a size error (30_encoding.md rule R44), so it is no matter of well-formedness. -/

namespace Sys2Proof

/-- A payload has n bytes with 0 <= n <= 2^32 - 1 (rule R25; 93_implementation_defined.md U10). -/
abbrev Instr.WellFormed (i : Instr) : Prop := i.payload.length < Config.payloadBound

end Sys2Proof
end

