-- ==== Sys2Proof/Decode.lean ====
section
/-! DEFINITION. The command frame and its decoder (30_encoding.md rules R37, R41 to R44), total on any
bytes, then the encoder written from the same rules. Decoding never depends on state (rule R43). -/

namespace Sys2Proof

/-- Why bytes are no command. -/
inductive DecodeError where
  /-- Not a frame: shorter than 5 bytes, or of another length than 5 + LEN (rule R37; U4). -/
  | malformedFrame
  /-- An opcode outside the eleven of rule R41 (rule R42). -/
  | illegalOp (op : Byte)
deriving DecidableEq, Repr

/-- The command frame, format CMD (rule R37): OP in byte 0, LEN in bytes 1 to 4 little-endian, then
LEN payload bytes and no more. `none` for a byte string that is not a frame. -/
def parseFrame : Bytes → Option (Byte × Bytes)
  | op :: l0 :: l1 :: l2 :: l3 :: payload =>
    if payload.length = leNat [l0, l1, l2, l3] then some (op, payload) else none
  | _ => none

/-- `decode_cmd(op, payload)` (rules R41, R42, R44): total over pairs; the payload length plays no
part in it. -/
def decodeCmd (op : Byte) (payload : Bytes) : Except DecodeError Instr :=
  match op with
  | 0x01#8 => .ok (.init payload)
  | 0x02#8 => .ok (.update payload)
  | 0x03#8 => .ok (.sum payload)
  | 0x04#8 => .ok (.blocksize payload)
  | 0x05#8 => .ok (.save payload)
  | 0x06#8 => .ok (.restore payload)
  | 0x07#8 => .ok (.status payload)
  | 0x10#8 => .ok (.clmul64 payload)
  | 0x11#8 => .ok (.reduce payload)
  | 0x12#8 => .ok (.mul payload)
  | 0x13#8 => .ok (.double payload)
  | other => .error (.illegalOp other)

/-- The decoder on the bytes of a frame (rules R37, R44). -/
def decodeFrame (f : Bytes) : Except DecodeError Instr :=
  match parseFrame f with
  | none => .error .malformedFrame
  | some (op, payload) => decodeCmd op payload

/-- The opcode of a command (rule R41). -/
def Instr.opcode : Instr → Byte
  | .init _ => 0x01
  | .update _ => 0x02
  | .sum _ => 0x03
  | .blocksize _ => 0x04
  | .save _ => 0x05
  | .restore _ => 0x06
  | .status _ => 0x07
  | .clmul64 _ => 0x10
  | .reduce _ => 0x11
  | .mul _ => 0x12
  | .double _ => 0x13

/-- The frame of an opcode and a payload (rule R37): 5 + n bytes. -/
def frameOf (op : Byte) (payload : Bytes) : Bytes :=
  op :: bytesOf (BitVec.ofNat 32 payload.length) ++ payload

/-- The frame of a command. -/
def encode (i : Instr) : Bytes := frameOf i.opcode i.payload

/-- The frame that an instruction word stands for, its bits numbered as spec/opcode_table.json
numbers them (byte k of the frame in bits 8k+7..8k): the word's own `nbits` bits, zeros above them,
cut to the 5 + LEN bytes its LEN field asks for (rule R37). -/
def frameOfTableWord (nbits w : Nat) : Bytes :=
  let v := w % 2 ^ nbits
  (List.range (5 + v / 256 % 4294967296)).map fun k => BitVec.ofNat 8 (v / 256 ^ k)

/-- The command the decoder reads from a word of spec/opcode_table.json. -/
def decodeTableWord (nbits w : Nat) : Option Instr :=
  match decodeFrame (frameOfTableWord nbits w) with
  | .ok i => some i
  | .error _ => none

end Sys2Proof
end

