-- ==== Sys2Proof/Machine/State.lean ====
section
/-! DEFINITION. The state (10_state.md), the responses of the block (30_encoding.md rules R38, R39),
the reasons a step can stop, and the state after reset (rule R23). -/

namespace Sys2Proof.Machine

/-- PHASE, the one bit of the lifecycle (rules R13, R16). -/
inductive Phase where
  | uninit
  | ready
deriving DecidableEq, Repr

/-- The six errors (60_exceptions.md rules R82 to R87). -/
inductive ErrorKind where
  /-- INIT with n not 16 (rule R82). -/
  | keySize
  /-- UPDATE in READY with n not a positive multiple of 16 (rule R83). -/
  | blockSize
  /-- RESTORE with a wrong length or a wrong tag (rule R84). -/
  | stateFormat
  /-- UPDATE, SUM or SAVE while PHASE = UNINIT (rule R85). -/
  | notReady
  /-- Any other command with a payload length it does not accept (rule R86). -/
  | operandSize
  /-- An opcode outside the table of rule R41 (rule R87). -/
  | illegalOp
deriving DecidableEq, Repr

/-- A response, the pair (status, result) of 20_memory.md rule R25. An error carries the empty result
(60_exceptions.md rules R81, R90), so its form has none. -/
inductive Response where
  | ok (result : Bytes)
  | error (kind : ErrorKind)
deriving DecidableEq, Repr

/-- The state of one instance: the three registers of rule R13, the command and response ports of
rule R25, and the host, the one agent that issues commands (rule R26; the model's own field,
assumption 3). -/
structure State where
  /-- PHASE, 1 bit (rule R16). -/
  phase : Phase
  /-- H, the hash key, 128 bits (rule R14). -/
  h : Elem
  /-- Y, the running digest, 128 bits (rule R15). -/
  y : Elem
  /-- The command port: the frames the host has presented and the block has not answered (rules R25,
  R37). One at a time by contract (rule R26); more than one is the overlap of rule R101. -/
  cmdPort : List Bytes
  /-- The response port: every response the block has given, in command order (rules R25, R34). -/
  responses : List Response
  /-- The host: the frames it is still to present, each after the response to the one before it
  (rules R26, R100). -/
  script : List Bytes
deriving DecidableEq, Repr

/-- The faults of the machine: none. The block "never hangs, resets or enters a fault state on any
command" (60_exceptions.md rule R81); an error is a response, so a next state. Safe. -/
inductive Fault where
deriving DecidableEq, Repr

/-- The reasons the model gives a step no meaning. Each is a situation to which the spec gives none. -/
inductive Refusal where
  /-- Raised by exec's arm of a command that has no meaning yet. Safe: no claim covers it. No arm
  raises it. -/
  | notModelled (mnemonic : String)
  /-- Raised by step when a second command stands on the port before the first was answered (rule
  R101; 93_implementation_defined.md U1). Safe. -/
  | overlappingCommands
  /-- Raised by step when the bytes on the port are no frame (rule R37; U4). Safe. -/
  | malformedFrame
  /-- Raised by exec on a command whose payload has 2^32 bytes or more, which no frame expresses
  (U10). Safe; step never meets it. -/
  | payloadTooLong
deriving DecidableEq, Repr

/-- What the block finds on its command port (rules R26, R101). -/
inductive Fetch where
  /-- No command is presented and the host has none to present. -/
  | idle
  /-- More than one command is in flight (rule R101). -/
  | overlap
  /-- One frame, and the state with that frame taken off the port. -/
  | frame (bytes : Bytes) (rest : State)
deriving DecidableEq, Repr

/-- The state after reset (rules R23, R97): PHASE = UNINIT. H and Y are unspecified there and cannot
be observed; the zeros are a DESIGN CHOICE (assumption 1) on which no statement rests. Nothing is on
the ports and the host has no commands. -/
def State.reset : State where
  phase := .uninit
  h := 0
  y := 0
  cmdPort := []
  responses := []
  script := []

end Sys2Proof.Machine
end

