-- ==== Sys2Proof/Machine/Flags.lean ====
section
/-! DEFINITION. The hardware has no flags, condition codes or predicates (10_state.md rule R19). What
it has in their place are two read-only values (rule R17), STATUS and BLOCKSIZE. -/

namespace Sys2Proof.Machine

/-- PHASE as its bit: UNINIT = 0, READY = 1 (rule R16). -/
def Phase.bit : Phase → BitVec 1
  | .uninit => 0
  | .ready => 1

/-- STATUS: bit 0 is PHASE, bits 7:1 are hardwired to zero (rule R17). -/
def State.statusByte (s : State) : Byte := s.phase.bit.setWidth 8

/-- BLOCKSIZE, the hardwired constant 16 (rule R17). -/
def blockSizeByte : Byte := 0x10

end Sys2Proof.Machine
end

