-- ==== Sys2Proof/Machine/Field.lean ====
section
/-! DEFINITION. The arithmetic of the block (00_scope.md rules R7 to R11; 40_clmul.md; 41_reduce.md;
42_field_ops.md): the normative definition of each unit, then the spec's other formulations of the
same functions, which no command calls (rules R68, R104). A field element is a value; none of these
functions reads or writes state (rule R12). -/

namespace Sys2Proof

/-! ## Constants (rule R9) -/

/-- p(x) = x^128 + x^127 + x^126 + x^121 + 1 as a 129-bit vector (rule R9). -/
def P129 : BitVec 129 := 0x1C2000000000000000000000000000001#129

/-- RPOLY = x^128 mod p: the low 128 bits of P129 (rule R9). -/
def RPOLY : Elem := 0xC2000000000000000000000000000001#128

/-- XINV, the inverse of x modulo p (rule R9). -/
def XINV : Elem := 0xE1000000000000000000000000000000#128

/-- XM128 = x^(-128) mod p (41_reduce.md rule R55 d). -/
def XM128 : Elem := 0x92040000000000000000000000000001#128

/-- X129 = x^129 mod p (42_field_ops.md rule R60 h). -/
def X129 : Elem := 0x46000000000000000000000000000003#128

/-! ## Words of an element (10_state.md rule R14) -/

/-- `hi`, the coefficients of x^64 to x^127 (rule R14, decision D2). -/
def hiWord (a : Elem) : Word64 := a.extractLsb' 64 64

/-- `lo`, the coefficients of x^0 to x^63 (rule R14, decision D2). -/
def loWord (a : Elem) : Word64 := a.extractLsb' 0 64

/-- `H = H.hi ++ H.lo` (rule R14). -/
def ofWords (hi lo : Word64) : Elem := hi ++ lo

/-! ## Addition and the carry-less product (rules R7, R8) -/

/-- Field addition is exclusive or; there is no carry (rule R7). -/
def add (a b : Elem) : Elem := a ^^^ b

/-- The exclusive or, over the set bits j < k of a, of b shifted left by j (rule R8). -/
def clmulUpTo {m n : Nat} (a : BitVec m) (b : BitVec n) : Nat → BitVec (m + n)
  | 0 => 0
  | j + 1 =>
    if a.getLsbD j then clmulUpTo a b j ^^^ (b.setWidth (m + n) <<< j) else clmulUpTo a b j

/-- The carry-less product, stored zero-extended in m + n bits (rule R8). -/
def clmul {m n : Nat} (a : BitVec m) (b : BitVec n) : BitVec (m + n) := clmulUpTo a b m

/-- The multiplier unit: the (hi, lo) words of the 128-bit product (40_clmul.md rule R47). -/
def ctmul (x y : Word64) : Word64 × Word64 :=
  let p : BitVec 128 := clmul x y
  (p.extractLsb' 64 64, p.extractLsb' 0 64)

/-! ## The plain residue (rule R11) -/

/-- Clear the bits at the indices 128 + k - 1 down to 128, highest first, with multiples of p. -/
def modPFrom {w : Nat} : Nat → BitVec w → BitVec w
  | 0, v => v
  | k + 1, v =>
    modPFrom k (if v.getLsbD (128 + k) then v ^^^ (P129.setWidth w <<< k) else v)

/-- `mod_p(v)`, the residue modulo p (rule R11). It serves laws and the reading that 90_conflicts.md
C1 rejects; no command returns `mod_p(clmul(a, b))`. -/
def modP {w : Nat} (v : BitVec w) : Elem := (modPFrom (w - 128) v).setWidth 128

/-! ## The reduction unit (41_reduce.md) -/

/-- One round of the bit-serial reduction: add the multiple of p that clears bit 0, then divide by x
(rule R54). -/
def redcRound (t : Wide) : Wide :=
  (if t.getLsbD 0 then t ^^^ P129.setWidth 256 else t) >>> 1

/-- `repeat k times` of rule R54. -/
def redcRounds : Nat → Wide → Wide
  | 0, t => t
  | k + 1, t => redcRounds k (redcRound t)

/-- `redc(P) = P * x^(-128) mod p` (rule R53, decision D18), in the bit-serial form of rule R54. The
factor x^(-128) follows 90_conflicts.md C1. -/
def redc (p : Wide) : Elem := (redcRounds 128 p).setWidth 128

/-- One halving step, `a * x^(-1) mod p` (rule R55 g). -/
def half (a : Elem) : Elem :=
  if a.getLsbD 0 then ((a ^^^ RPOLY) >>> 1) ||| (1#128 <<< 127) else a >>> 1

/-! ## Multiply and double (42_field_ops.md) -/

/-- `mul(a, b) = redc(clmul(a, b))`, that is a * b * x^(-128) mod p (rule R59). -/
def mul (a b : Elem) : Elem := redc (clmul a b)

/-- The carry the doubler shifts out, `a[127]` (rule R62). It is no state (10_state.md rule R19). -/
def carryOut (a : Elem) : Bool := a.getLsbD 127

/-- `dbl(a)`: multiply by x, the plain product with no factor x^(-128) (rule R62). -/
def dbl (a : Elem) : Elem := (a <<< 1) ^^^ (if carryOut a then RPOLY else 0)

/-- Powers under `mul`: `h^(1) = h`, `h^(j+1) = mul(h^(j), h)` (43_accumulator.md rule R76), so that
`mulPow h j` is `h^(j+1)`. -/
def mulPow (h : Elem) : Nat → Elem
  | 0 => h
  | j + 1 => mul (mulPow h j) h

/-- `dbl` applied k times (rule R63 c). -/
def dblTimes : Nat → Elem → Elem
  | 0, a => a
  | k + 1, a => dbl (dblTimes k a)

/-- `half` applied k times (rule R55 g). -/
def halfTimes : Nat → Elem → Elem
  | 0, a => a
  | k + 1, a => half (halfTimes k a)

/-! ## Other formulations of the same functions (rules R51, R52, R56, R62, R65, R68) -/

/-- The 256-bit value of four words, v0 least significant (20_memory.md rule R28). -/
def ofFourWords (v3 v2 v1 v0 : Word64) : Wide := v3 ++ v2 ++ v1 ++ v0

/-- Word k of a 256-bit value. -/
def wordOf (p : Wide) (k : Nat) : Word64 := p.extractLsb' (64 * k) 64

/-- The 128 x 128 product from four `ctmul` products (40_clmul.md rule R51). -/
def clmulFour (a b : Elem) : Wide :=
  let A := ctmul (loWord a) (loWord b)
  let B := ctmul (loWord a) (hiWord b)
  let C := ctmul (hiWord a) (loWord b)
  let D := ctmul (hiWord a) (hiWord b)
  ofFourWords D.1 (B.1 ^^^ C.1 ^^^ D.2) (A.1 ^^^ B.2 ^^^ C.2) A.2

/-- The three-product arrangement (rule R52). -/
def clmulThree (a b : Elem) : Wide :=
  let A := ctmul (loWord a) (loWord b)
  let D := ctmul (hiWord a) (hiWord b)
  let E := ctmul (loWord a ^^^ hiWord a) (loWord b ^^^ hiWord b)
  let mh := E.1 ^^^ A.1 ^^^ D.1
  let ml := E.2 ^^^ A.2 ^^^ D.2
  ofFourWords D.1 (D.2 ^^^ mh) (A.1 ^^^ ml) A.2

/-- The word form of the reduction (41_reduce.md rule R56): shifts and exclusive ors on words. -/
def redcWords (p : Wide) : Elem :=
  let v0 := wordOf p 0
  let v2 := wordOf p 2 ^^^ v0 ^^^ (v0 >>> 1) ^^^ (v0 >>> 2) ^^^ (v0 >>> 7)
  let v1 := wordOf p 1 ^^^ (v0 <<< 63) ^^^ (v0 <<< 62) ^^^ (v0 <<< 57)
  let v3 := wordOf p 3 ^^^ v1 ^^^ (v1 >>> 1) ^^^ (v1 >>> 2) ^^^ (v1 >>> 7)
  let lo := v2 ^^^ (v1 <<< 63) ^^^ (v1 <<< 62) ^^^ (v1 <<< 57)
  ofWords v3 lo

/-- The word form of the doubler (rule R62, "In words"). -/
def dblWords (a : Elem) : Elem :=
  let carry : Word64 := if carryOut a then 1 else 0
  ofWords (((hiWord a <<< 1) ||| (loWord a >>> 63)) ^^^
      (if carryOut a then 0xC200000000000000#64 else 0))
    ((loWord a <<< 1) ^^^ carry)

/-- The mask form of the doubler (rule R65): `mask = 0 - zext_128(carry)`. -/
def dblMasked (a : Elem) : Elem :=
  let mask : Elem := 0 - (BitVec.ofBool (carryOut a)).setWidth 128
  (a <<< 1) ^^^ (mask &&& RPOLY)

end Sys2Proof
end

