-- ==== Sys2Proof/Machine/Operands.lean ====
section
/-! DEFINITION. Operand assembly (30_encoding.md rule R40) and the serializer unit (20_memory.md rule
R27, 42_field_ops.md rule R66): how each payload is cut into operands and each result is built.
Nothing is sign-extended, scaled or shifted. -/

namespace Sys2Proof

/-- `decode(b) = le_128(b)` (rule R27), the source's `setBytes`. -/
def decodeElem (b : Bytes) : Elem := le 128 b

/-- `encode(a)`, 16 bytes with `encode(a)[k] = a[8k+7:8k]` (rule R27). -/
def encodeElem (a : Elem) : Bytes := bytesOf a

/-- The operands x and y of CLMUL64: bytes 0..8 and 8..16 (rules R40, R50). -/
def clmulOperands (p : Bytes) : Word64 × Word64 := (le 64 (slice p 0 8), le 64 (slice p 8 16))

/-- The result of CLMUL64: the 8 bytes of lo, then the 8 bytes of hi (rules R28, R40, R50). -/
def clmulResult (hilo : Word64 × Word64) : Bytes := bytesOf hilo.2 ++ bytesOf hilo.1

/-- The operand of REDUCE, `P = le_256(payload)` (rules R40, R58). -/
def reduceOperand (p : Bytes) : Wide := le 256 p

/-- The operands a and b of MUL (rules R40, R61). -/
def mulOperands (p : Bytes) : Elem × Elem := (decodeElem (slice p 0 16), decodeElem (slice p 16 32))

/-- Block i, counted from 0: `decode(payload[16i..16(i+1)])` (rules R40, R71). -/
def blockAt (p : Bytes) (i : Nat) : Elem := decodeElem (slice p (16 * i) (16 * i + 16))

/-- The blocks X_1 .. X_k of an UPDATE payload, in payload order (rules R34, R71). -/
def blocksOf (p : Bytes) : List Elem := (List.range (p.length / 16)).map (blockAt p)

/-- `t = mul(t ^ X_i, H)` for each block in input order, from t = Y (rule R71). -/
def absorb (h y : Elem) (xs : List Elem) : Elem := xs.foldl (fun t x => mul (add t x) h) y

/-- The state blob: tag, then encode(H), then encode(Y) (44_state_serialization.md rule R77). -/
def blobOf (tag : Bytes) (h y : Elem) : Bytes := tag ++ encodeElem h ++ encodeElem y

/-- Reading a state blob under a tag: `none` for a wrong length or a wrong tag, else (H, Y); the data
bytes are never refused (rules R77, R79). -/
def parseBlob (tag b : Bytes) : Option (Elem × Elem) :=
  if b.length ≠ tag.length + 32 then none
  else if slice b 0 tag.length ≠ tag then none
  else some (decodeElem (slice b tag.length (tag.length + 16)),
    decodeElem (slice b (tag.length + 16) (tag.length + 32)))

end Sys2Proof
end

