-- ==== Sys2Proof/Machine/Ops.lean ====
section
/-! DEFINITION. The shared operations over the state: answering a command, raising an error (the one
operation of 60_exceptions.md rule R90), the checks that come before every write, reading and writing
the accumulator, and taking a command from the port. -/

namespace Sys2Proof.Machine

/-- The outcome of a command. -/
abbrev Result := Host.Outcome State Fault Refusal

/-- Doing a list of things one after another, stopping where one has no meaning (20_memory.md rule
R34). -/
def runAll {α : Type} (f : α → State → Result) : List α → State → Result
  | [], s => .next s
  | x :: xs, s =>
    match f x s with
    | .next t => runAll f xs t
    | .fault r => .fault r
    | .refused r => .refused r

/-- A response leaves the block (20_memory.md rules R25, R34). -/
def State.emit (r : Response) (s : State) : State := { s with responses := s.responses ++ [r] }

/-- `respond(OK, r)`: the command ends with status 0 and result r (00_scope.md section 3). -/
def respond (r : Bytes) (s : State) : Result := .next (s.emit (.ok r))

/-- `raise <Error>` (rule R90): the command ends, the response carries the error and the empty result,
and PHASE, H and Y keep their values. Nothing is saved, no mode changes and no handler runs; there is
no return, since the next command runs as if this one had not been issued (rule R91). -/
def raise (e : ErrorKind) (s : State) : Result := .next (s.emit (.error e))

/-- A payload longer than 2^32 - 1 bytes is no command's payload (rule R25;
93_implementation_defined.md U10: refused). -/
def inFrame (payload : Bytes) (k : Result) : Result :=
  if payload.length < Config.payloadBound then k else .refused .payloadTooLong

/-- Reading H and Y. Every command that reads them first requires PHASE = READY and raises NotReady
otherwise (rules R16, R23, R85), so in UNINIT they cannot be read. -/
def whenReady (s : State) (k : Elem → Elem → Result) : Result :=
  match s.phase with
  | .uninit => raise .notReady s
  | .ready => k s.h s.y

/-- The length check of the commands with one accepted length (20_memory.md rule R30), with the error
it raises. It comes before any write (rule R31). -/
def sized (payload : Bytes) (n : Nat) (e : ErrorKind) (s : State) (k : Result) : Result :=
  if payload.length ≠ n then raise e s else k

/-- `H <- h ; Y <- y ; PHASE <- READY`: a new accumulator lifetime, begun by INIT and RESTORE alone
(rules R14, R69). -/
def State.load (h y : Elem) (s : State) : State := { s with phase := .ready, h := h, y := y }

/-- `Y <- y` (rule R15). -/
def State.setY (y : Elem) (s : State) : State := { s with y := y }

/-- An opcode outside the table raises IllegalOp whatever its payload and the phase (rules R42, R87). -/
def execIllegal (payload : Bytes) (s : State) : Result := inFrame payload (raise .illegalOp s)

/-- What stands on the command port. When nothing does, the host presents its next command, having
seen the response to every earlier one (rules R26, R100). -/
def nextFrame (s : State) : Fetch :=
  match s.cmdPort with
  | [] =>
    match s.script with
    | [] => .idle
    | f :: rest => .frame f { s with script := rest }
  | [f] => .frame f { s with cmdPort := [] }
  | _ :: _ :: _ => .overlap

/-- The host puts a frame on the command port (rule R25). It may do so too early, which is the overlap
of rule R101. -/
def State.present (f : Bytes) (s : State) : State := { s with cmdPort := s.cmdPort ++ [f] }

/-- The reset transition (70_reset_and_hazards.md rules R97, R98), outside `exec`: the registers take
the state of rule R23 and a command on the port is abandoned with no response. Responses already
given, and what the host has still to present, are the host's (DESIGN CHOICE, assumption 5). That a
reset also ends an overlap of commands on the port (rule R101), all of them dropped with no response,
is a DESIGN CHOICE too: the spec gives the overlap no meaning (assumption 5). -/
def State.applyReset (s : State) : State :=
  { s with
    phase := State.reset.phase, h := State.reset.h, y := State.reset.y, cmdPort := [] }

end Sys2Proof.Machine
end

