-- ==== Sys2Proof/Machine/Accumulator.lean ====
section
/-! DEFINITION. The accumulator commands INIT, UPDATE, SUM, BLOCKSIZE and STATUS (43_accumulator.md).
Checks stand in the order of 60_exceptions.md rule R89. -/

namespace Sys2Proof.Machine

/-- INIT (rule R70). Every 16-byte key is accepted; in READY the old H and Y are discarded. -/
def execInit (payload : Bytes) (s : State) : Result :=
  inFrame payload <|
    sized payload 16 .keySize s <|
      respond [] (s.load (decodeElem payload) 0)

/-- UPDATE (rule R71): any positive multiple of 16 bytes, wholly or not at all. -/
def execUpdate (payload : Bytes) (s : State) : Result :=
  inFrame payload <|
    whenReady s fun h y =>
      if payload.length = 0 ∨ payload.length % 16 ≠ 0 then raise .blockSize s
      else respond [] (s.setY (absorb h y (blocksOf payload)))

/-- SUM (rule R72): reads Y out and leaves it. -/
def execSum (payload : Bytes) (s : State) : Result :=
  inFrame payload <|
    whenReady s fun _ y =>
      sized payload 0 .operandSize s <|
        respond (encodeElem y) s

/-- BLOCKSIZE (rule R73). -/
def execBlocksize (payload : Bytes) (s : State) : Result :=
  inFrame payload <|
    sized payload 0 .operandSize s <|
      respond [blockSizeByte] s

/-- STATUS (rule R74). -/
def execStatus (payload : Bytes) (s : State) : Result :=
  inFrame payload <|
    sized payload 0 .operandSize s <|
      respond [s.statusByte] s

end Sys2Proof.Machine
end

