-- ==== Sys2Proof/Machine/Datapath.lean ====
section
/-! DEFINITION. The datapath commands CLMUL64, REDUCE, MUL and DOUBLE (40_clmul.md, 41_reduce.md,
42_field_ops.md). They read no state and write none, and are legal in both phases. -/

namespace Sys2Proof.Machine

/-- CLMUL64 (rule R50). -/
def execClmul64 (payload : Bytes) (s : State) : Result :=
  inFrame payload <|
    sized payload 16 .operandSize s <|
      let xy := clmulOperands payload
      respond (clmulResult (ctmul xy.1 xy.2)) s

/-- REDUCE (rule R58): total on all 2^256 inputs (decision D22). -/
def execReduce (payload : Bytes) (s : State) : Result :=
  inFrame payload <|
    sized payload 32 .operandSize s <|
      respond (encodeElem (redc (reduceOperand payload))) s

/-- MUL (rule R61). -/
def execMul (payload : Bytes) (s : State) : Result :=
  inFrame payload <|
    sized payload 32 .operandSize s <|
      let ab := mulOperands payload
      respond (encodeElem (mul ab.1 ab.2)) s

/-- DOUBLE (rule R64). -/
def execDouble (payload : Bytes) (s : State) : Result :=
  inFrame payload <|
    sized payload 16 .operandSize s <|
      respond (encodeElem (dbl (decodeElem payload))) s

end Sys2Proof.Machine
end

