-- ==== Sys2Proof/Machine/Serialization.lean ====
section
/-! DEFINITION. State export and import, SAVE and RESTORE (44_state_serialization.md), each stated for
any tag and then taken at the block's own STATE_TAG, which is open (decision D13). -/

namespace Sys2Proof.Machine

/-- SAVE under a given tag (rule R78). -/
def saveWith (tag payload : Bytes) (s : State) : Result :=
  inFrame payload <|
    whenReady s fun h y =>
      sized payload 0 .operandSize s <|
        respond (blobOf tag h y) s

/-- RESTORE under a given tag (rule R79): a wrong length and a wrong tag both raise StateFormat. -/
def restoreWith (tag payload : Bytes) (s : State) : Result :=
  inFrame payload <|
    match parseBlob tag payload with
    | none => raise .stateFormat s
    | some (h, y) => respond [] (s.load h y)

/-- SAVE (rule R78). -/
def execSave (payload : Bytes) (s : State) : Result := saveWith Config.stateTag payload s

/-- RESTORE (rule R79). -/
def execRestore (payload : Bytes) (s : State) : Result := restoreWith Config.stateTag payload s

end Sys2Proof.Machine
end

