-- ==== Sys2Proof/Machine/Dispatch.lean ====
section
/-! DEFINITION. The meaning of every command: one arm per row of spec/opcode_table.json. -/

namespace Sys2Proof.Machine

def exec (i : Instr) (s : State) : Host.Outcome State Fault Refusal :=
  match i with
  | .init p => Sys2Proof.Machine.execInit p s
  | .update p => Sys2Proof.Machine.execUpdate p s
  | .sum p => Sys2Proof.Machine.execSum p s
  | .blocksize p => Sys2Proof.Machine.execBlocksize p s
  | .save p => Sys2Proof.Machine.execSave p s
  | .restore p => Sys2Proof.Machine.execRestore p s
  | .status p => Sys2Proof.Machine.execStatus p s
  | .clmul64 p => Sys2Proof.Machine.execClmul64 p s
  | .reduce p => Sys2Proof.Machine.execReduce p s
  | .mul p => Sys2Proof.Machine.execMul p s
  | .double p => Sys2Proof.Machine.execDouble p s

end Sys2Proof.Machine
end

