-- ==== Sys2Proof/Machine/Step.lean ====
section
/-! DEFINITION. One step: the block takes the command on its port and runs it wholly (20_memory.md
rules R25, R31, R34). -/

namespace Sys2Proof.Machine

/-- `exec : State x Command -> State x Response` of rule R25, over pairs (op, payload): defined for
every opcode value 0 to 255. -/
def execCommand (op : Byte) (payload : Bytes) (s : State) : Result :=
  match decodeCmd op payload with
  | .ok i => exec i s
  | .error _ => execIllegal payload s

/-- Running the command of a frame. A byte string that is no frame has no meaning (rule R37; U4). -/
def runFrame (f : Bytes) (s : State) : Result :=
  match parseFrame f with
  | none => .refused .malformedFrame
  | some (op, payload) => execCommand op payload s

/-- One step. With nothing to do the block waits, unchanged (assumption 4); with one command it runs
it; with more than one in flight the model gives no meaning (rule R101). -/
def step (s : State) : Host.Outcome State Fault Refusal :=
  match nextFrame s with
  | .idle => .next s
  | .overlap => .refused .overlappingCommands
  | .frame f rest => runFrame f rest

/-- The frame of a table word, on the command port, where step takes its next command. -/
def State.withFetchWord (s : State) (nbits w : Nat) : State :=
  { s with cmdPort := [frameOfTableWord nbits w] }

end Sys2Proof.Machine
end

