-- ==== Sys2Proof/Machine/Assembly.lean ====
section
/-! DEFINITION. The one-line command and response notation (30_encoding.md rule R45): text for a
reader, which no step depends on. Text is a list of characters. -/

namespace Sys2Proof.Machine

/-- The mnemonic of a command (rule R41). -/
def mnemonicOf : Instr → List Char
  | .init _ => "INIT".toList
  | .update _ => "UPDATE".toList
  | .sum _ => "SUM".toList
  | .blocksize _ => "BLOCKSIZE".toList
  | .save _ => "SAVE".toList
  | .restore _ => "RESTORE".toList
  | .status _ => "STATUS".toList
  | .clmul64 _ => "CLMUL64".toList
  | .reduce _ => "REDUCE".toList
  | .mul _ => "MUL".toList
  | .double _ => "DOUBLE".toList

/-- The status name of an error (rule R39). -/
def ErrorKind.name : ErrorKind → List Char
  | .keySize => "KeySize".toList
  | .blockSize => "BlockSize".toList
  | .stateFormat => "StateFormat".toList
  | .notReady => "NotReady".toList
  | .operandSize => "OperandSize".toList
  | .illegalOp => "IllegalOp".toList

/-- A hex digit, lower case as the spec writes byte strings. -/
def hexDigit (n : Nat) : Char := if n < 10 then Char.ofNat (48 + n) else Char.ofNat (87 + n)

/-- Two hex digits for a byte (rule R45). -/
def hexByte (b : Byte) : List Char := [hexDigit (b.toNat / 16), hexDigit (b.toNat % 16)]

/-- A byte string as hex in transmission order, after one space; nothing for the empty one. -/
def hexTail (p : Bytes) : List Char := if p = [] then [] else ' ' :: p.flatMap hexByte

/-- The line of a command: its mnemonic, or `OP 0xNN` for an illegal opcode, then the payload. -/
def renderCommand (op : Byte) (payload : Bytes) : List Char :=
  match decodeCmd op payload with
  | .ok i => mnemonicOf i ++ hexTail payload
  | .error _ => "OP 0x".toList ++ hexByte op ++ hexTail payload

/-- The response part of a line, `-> <status name>` and the result in hex. -/
def renderResponse : Response → List Char
  | .ok r => "-> OK".toList ++ hexTail r
  | .error e => "-> ".toList ++ e.name

/-- The value of a hex digit. -/
def hexValue (c : Char) : Option Nat :=
  if '0' ≤ c ∧ c ≤ '9' then some (c.toNat - 48)
  else if 'a' ≤ c ∧ c ≤ 'f' then some (c.toNat - 87)
  else if 'A' ≤ c ∧ c ≤ 'F' then some (c.toNat - 55)
  else none

/-- The byte of two hex digits. -/
def byteOfHex (a b : Char) : Option Byte :=
  match hexValue a, hexValue b with
  | some x, some y => some (BitVec.ofNat 8 (16 * x + y))
  | _, _ => none

/-- Two digits per byte, spaces allowed between bytes (rule R45). -/
def parseHex : List Char → Option Bytes
  | [] => some []
  | [c] => if c = ' ' then some [] else none
  | a :: b :: cs =>
    if a = ' ' then parseHex (b :: cs)
    else
      match byteOfHex a b, parseHex cs with
      | some x, some xs => some (x :: xs)
      | _, _ => none

/-- The opcode of a mnemonic (rule R41). -/
def opcodeOfMnemonic (m : List Char) : Option Byte :=
  ([.init [], .update [], .sum [], .blocksize [], .save [], .restore [], .status [], .clmul64 [],
    .reduce [], .mul [], .double []] : List Instr).find? (fun i => mnemonicOf i = m)
    |>.map Instr.opcode

/-- One line of a program (rule R45): text after `;` is comment; the mnemonic in capitals, or
`OP 0xNN` for an illegal opcode; then the payload. That the line is the command alone, so that one which
also shows its response (`-> OK`, as in the rule's example) reads as none, is a DESIGN CHOICE: the rule
does not say whether a program line may carry it (assumption 9). -/
def parseLine (line : List Char) : Option (Byte × Bytes) :=
  let text := (line.takeWhile (· ≠ ';')).dropWhile (· = ' ')
  let word := text.takeWhile (· ≠ ' ')
  let rest := (text.dropWhile (· ≠ ' ')).dropWhile (· = ' ')
  if word = "OP".toList then
    match rest with
    | '0' :: 'x' :: a :: b :: cs =>
      match byteOfHex a b, parseHex cs with
      | some op, some p =>
        match decodeCmd op p with
        | .ok _ => none
        | .error _ => some (op, p)
      | _, _ => none
    | _ => none
  else
    match opcodeOfMnemonic word, parseHex rest with
    | some op, some p => some (op, p)
    | _, _ => none

/-- A program, a list of lines executed top to bottom (rule R45), as the frames of its commands. A
line with nothing before its comment is no command. `none` when a line does not read. -/
def assemble : List (List Char) → Option (List Bytes)
  | [] => some []
  | l :: ls =>
    if (l.takeWhile (· ≠ ';')).all (· = ' ') then assemble ls
    else
      match parseLine l, assemble ls with
      | some (op, p), some fs => some (frameOf op p :: fs)
      | _, _ => none

end Sys2Proof.Machine
end

