-- ==== Sys2Proof/Machine/Program.lean ====
section
/-! DEFINITION. Command sequences, and the pseudo-operations of 30_encoding.md rule R46: host-side work
around real commands. -/

namespace Sys2Proof.Machine

/-- Commands executed in order, each wholly before the next (20_memory.md rule R34). -/
def execAll : List Instr → State → Result := runAll exec

/-- The same over pairs (op, payload), which illegal opcodes may be among (20_memory.md rule R25,
30_encoding.md rule R42). -/
def execCommands : List (Byte × Bytes) → State → Result := runAll fun c => execCommand c.1 c.2

/-- `POLYVAL key, X_1 .. X_s`: INIT, one UPDATE of all blocks (none for s = 0), SUM (rule R46 a). -/
def polyvalProgram (key : Bytes) (blocks : List Bytes) : List Instr :=
  [.init key] ++ (if blocks = [] then [] else [.update blocks.flatten]) ++ [.sum []]

/-- `SUMB buf`: the buffer with the 16 bytes of SUM after it (rule R46 b). That the host forms no buffer
when SUM answers an error is a DESIGN CHOICE: the rule does not say (assumption 13). -/
def sumbBuffer (buf : Bytes) : Response → Option Bytes
  | .ok r => some (buf ++ r)
  | .error _ => none

/-- `UPDATE X_1 .. UPDATE X_k`, one command a block (rule R46 c). -/
def updateEach (blocks : List Bytes) : List Instr := blocks.map .update

/-- `XORDBL a, b`: the host forms a ^ b, then DOUBLE (rule R46 d). -/
def xordblProgram (a b : Bytes) : List Instr := [.double (List.zipWith (· ^^^ ·) a b)]

/-- The closed form of the digest: the exclusive or over i of `mul(X_i, h^(s-i+1))`
(43_accumulator.md rule R76). -/
def closedForm (h : Elem) : List Elem → Elem
  | [] => 0
  | x :: xs => add (mul x (mulPow h xs.length)) (closedForm h xs)

end Sys2Proof.Machine
end

