-- ==== Sys2Proof/Machine/System.lean ====
section
/-! DEFINITION. Several instances: the state of a system of k instances is the product of k copies, and
a command to one reads and writes that one only (10_state.md rule R24, 60_exceptions.md rule R95). -/

namespace Sys2Proof.Machine

/-- A system of k instances (rule R24). -/
abbrev System (k : Nat) := Vector State k

/-- Every instance after its own reset; no start-up protocol joins them (rule R95). -/
def System.reset (k : Nat) : System k := Vector.replicate k State.reset

/-- The host presents a frame to instance i. -/
def System.present {k : Nat} (i : Fin k) (f : Bytes) (sys : System k) : System k :=
  sys.set i (sys[i].present f)

/-- Instance i takes a step. -/
def System.step {k : Nat} (i : Fin k) (sys : System k) :
    Host.Outcome (System k) Fault Refusal :=
  match Machine.step sys[i] with
  | .next t => .next (sys.set i t)
  | .fault r => .fault r
  | .refused r => .refused r

end Sys2Proof.Machine
end

