-- ==== Sys2Proof/Poly.lean ====
section
/-! DEFINITION. The polynomial a bit vector stands for (00_scope.md rule R6), for statements about the
arithmetic. No definition of the machine uses it. -/

namespace Sys2Proof

/-- `poly(a) = sum over i of a[i] * x^i`, coefficients in GF(2) (rule R6). -/
noncomputable def poly {n : Nat} (a : BitVec n) : Polynomial (ZMod 2) :=
  ∑ i ∈ Finset.range n, if a.getLsbD i = true then Polynomial.X ^ i else 0

/-- Congruence modulo the reducing polynomial p(x) of rule R9. -/
def ModEqP (f g : Polynomial (ZMod 2)) : Prop := poly P129 ∣ f - g

end Sys2Proof
end

