-- ==== Sys2Proof/Machine/Interface.lean ====
section
/-! DEFINITION. What the outside world can do to the block: present a command and reset it. There are
no interrupts (60_exceptions.md rule R88). -/

namespace Sys2Proof.Machine

/-- The events at the block's boundary (rules R25, R88, R97). -/
inductive Event where
  /-- The host puts a frame on the command port. -/
  | present (frame : Bytes)
  /-- Reset arrives, between commands or while one is on the port (rule R98). -/
  | reset
  /-- The block takes a step. -/
  | run
deriving DecidableEq, Repr

/-- The effect of one event. -/
def applyEvent (e : Event) (s : State) : Result :=
  match e with
  | .present f => .next (s.present f)
  | .reset => .next s.applyReset
  | .run => step s

/-- A sequence of events, stopping where the model gives no meaning. -/
def runEvents : List Event → State → Result := runAll applyEvent

end Sys2Proof.Machine
end

