-- ==== Sys2Proof/Machine/ResponseFrame.lean ====
section
/-! DEFINITION. The response frame, format RSP, and the status codes (30_encoding.md rules R38, R39),
in both directions. -/

namespace Sys2Proof.Machine

/-- The status code of an error (rule R39). -/
def ErrorKind.code : ErrorKind → Byte
  | .keySize => 0x01
  | .blockSize => 0x02
  | .stateFormat => 0x03
  | .notReady => 0x04
  | .operandSize => 0x05
  | .illegalOp => 0x06

/-- The error of a status code; 0x00 is OK and 0x07 to 0xFF are never produced (rule R39). -/
def errorOfCode (c : Byte) : Option ErrorKind :=
  match c with
  | 0x01#8 => some .keySize
  | 0x02#8 => some .blockSize
  | 0x03#8 => some .stateFormat
  | 0x04#8 => some .notReady
  | 0x05#8 => some .operandSize
  | 0x06#8 => some .illegalOp
  | _ => none

/-- The status of a response (rules R25, R39). -/
def Response.status : Response → Byte
  | .ok _ => 0x00
  | .error e => e.code

/-- The result of a response; an error's is empty (rules R25, R81). -/
def Response.result : Response → Bytes
  | .ok r => r
  | .error _ => []

/-- The response frame (rule R38): STATUS, RLEN as 32-bit little-endian, RESULT. -/
def Response.frame (r : Response) : Bytes :=
  r.status :: bytesOf (BitVec.ofNat 32 r.result.length) ++ r.result

/-- Reading a response frame; `none` for bytes the block never sends (rules R38, R39). -/
def Response.ofFrame : Bytes → Option Response
  | st :: l0 :: l1 :: l2 :: l3 :: result =>
    if result.length = leNat [l0, l1, l2, l3] then
      if st = 0x00 then some (.ok result)
      else if result = [] then (errorOfCode st).map .error
      else none
    else none
  | _ => none

end Sys2Proof.Machine
end

