-- ==== Sys2Proof/Safety.lean ====
section
/-! DEFINITION. What counts as a safe run, and the tables of the spec in the terms statements use: the
access, length and error tables (10_state.md rule R22, 20_memory.md rules R30 and R32, 30_encoding.md
rule R41, 60_exceptions.md rule R89), each written from its own rule and not from the meanings. -/

namespace Sys2Proof.Machine

/-- Bytes that are a command frame (30_encoding.md rule R37). -/
def isFrame (f : Bytes) : Bool := (parseFrame f).isSome

/-- The host keeps the interface contract: at most one command in flight, and every byte string it
presents is a frame (20_memory.md rule R26, 30_encoding.md rule R37, 70_reset_and_hazards.md rules
R100 and R101). -/
abbrev HostContract (s : State) : Prop :=
  s.cmdPort.length ≤ 1 ∧ (∀ f ∈ s.cmdPort, isFrame f = true) ∧ ∀ f ∈ s.script, isFrame f = true

/-- The result lengths the block gives (20_memory.md rule R32): none, a byte, an element, a blob. -/
abbrev Response.Shaped (r : Response) : Prop :=
  r.result.length ∈ [0, 1, 16, Config.tagLen.val + 32]

/-- A safe state: the host keeps its contract and every response given has a length of rule R32. -/
def Safe (s : State) : Prop := HostContract s ∧ ∀ r ∈ s.responses, r.Shaped

/-- What an observer of the ports can tell of a state: the ports, the host, PHASE, and H and Y only
while PHASE = READY (10_state.md rule R23). -/
def SameView (s t : State) : Prop :=
  s.phase = t.phase ∧ s.cmdPort = t.cmdPort ∧ s.responses = t.responses ∧ s.script = t.script ∧
    (s.phase = .ready → s.h = t.h ∧ s.y = t.y)

/-- The column "needs READY" of rule R41. -/
def needsReady : Instr → Bool
  | .update _ => true
  | .sum _ => true
  | .save _ => true
  | .init _ => false
  | .blocksize _ => false
  | .restore _ => false
  | .status _ => false
  | .clmul64 _ => false
  | .reduce _ => false
  | .mul _ => false
  | .double _ => false

/-- The column "changes state" of rule R41. -/
def changesState : Instr → Bool
  | .init _ => true
  | .update _ => true
  | .restore _ => true
  | .sum _ => false
  | .blocksize _ => false
  | .save _ => false
  | .status _ => false
  | .clmul64 _ => false
  | .reduce _ => false
  | .mul _ => false
  | .double _ => false

/-- The accepted payload lengths of rule R30. -/
def acceptsLength : Instr → Bool
  | .init p => p.length = 16
  | .update p => 1 ≤ p.length ∧ p.length % 16 = 0
  | .sum p => p.length = 0
  | .blocksize p => p.length = 0
  | .save p => p.length = 0
  | .status p => p.length = 0
  | .restore p => p.length = Config.tagLen.val + 32
  | .clmul64 p => p.length = 16
  | .double p => p.length = 16
  | .reduce p => p.length = 32
  | .mul p => p.length = 32

/-- The error of a length that is not accepted (rule R30). -/
def lengthError : Instr → ErrorKind
  | .init _ => .keySize
  | .update _ => .blockSize
  | .restore _ => .stateFormat
  | .sum _ => .operandSize
  | .blocksize _ => .operandSize
  | .save _ => .operandSize
  | .status _ => .operandSize
  | .clmul64 _ => .operandSize
  | .reduce _ => .operandSize
  | .mul _ => .operandSize
  | .double _ => .operandSize

/-- A RESTORE payload opens with the block's tag (rule R79); other commands carry no tag. -/
def tagMatches : Instr → Bool
  | .restore p => p.take Config.tagLen.val = Config.stateTag
  | .init _ => true
  | .update _ => true
  | .sum _ => true
  | .blocksize _ => true
  | .save _ => true
  | .status _ => true
  | .clmul64 _ => true
  | .reduce _ => true
  | .mul _ => true
  | .double _ => true

/-- The length of a command's result when it succeeds (rule R32). -/
def resultLength : Instr → Nat
  | .init _ => 0
  | .update _ => 0
  | .restore _ => 0
  | .sum _ => 16
  | .clmul64 _ => 16
  | .reduce _ => 16
  | .mul _ => 16
  | .double _ => 16
  | .blocksize _ => 1
  | .status _ => 1
  | .save _ => Config.tagLen.val + 32

/-- The one error a command reports, the first that applies in the order of rule R89: IllegalOp, then
NotReady, then the command's length check, then the tag. -/
def firstError (op : Byte) (payload : Bytes) (phase : Phase) : Option ErrorKind :=
  match decodeCmd op payload with
  | .error _ => some .illegalOp
  | .ok i =>
    if needsReady i = true ∧ phase = .uninit then some .notReady
    else if acceptsLength i = false then some (lengthError i)
    else if tagMatches i = false then some .stateFormat
    else none

end Sys2Proof.Machine
end

