-- ==== Sys2Proof/Certificates/Slice0/Obligations.lean ====
section
/-! DEFINITION. The statements of the model, one `def Obligations.<Name> : Prop` each, with the rule of
spec/ it formalises. An outcome is written out as the next state, so that a statement of a result is
also the statement that the command completes and of what it leaves alone. -/

open Sys2Proof Sys2Proof.Machine

/-! ## Frames and decoding -/

/-- Rule R37: the frame of a command is OP, LEN little-endian in bytes 1 to 4, then the payload; a
byte string shorter than 5 bytes, or of another length than 5 + LEN, is not a frame; the frame is a
bijection between pairs (OP, PAYLOAD) with n < 2^32 and such strings. -/
def Obligations.FrameFormatIsABijection : Prop :=
  (∀ (op : Byte) (p : Bytes), p.length < 2 ^ 32 →
    (frameOf op p).length = 5 + p.length ∧
    (frameOf op p)[0]? = some op ∧
    leNat (slice (frameOf op p) 1 5) = p.length ∧
    (frameOf op p).drop 5 = p ∧
    parseFrame (frameOf op p) = some (op, p)) ∧
  (∀ f : Bytes, parseFrame f = none ↔ f.length < 5 ∨ f.length ≠ 5 + leNat (slice f 1 5)) ∧
  (∀ (f : Bytes) (op : Byte) (p : Bytes), parseFrame f = some (op, p) →
    p.length < 2 ^ 32 ∧ frameOf op p = f)

/-- 30_encoding.md sections 1 and 3: no bit of a command is lost between the encoder and the decoder. -/
def Obligations.DecodeOfEncodeIsIdentity : Prop :=
  ∀ i : Instr, i.WellFormed → decodeFrame (encode i) = .ok i

/-- 30_encoding.md sections 1 and 3: each command has one frame. -/
def Obligations.EncodeOfDecodeIsIdentity : Prop :=
  ∀ (f : Bytes) (i : Instr), decodeFrame f = .ok i → i.WellFormed ∧ encode i = f

/-- 30_encoding.md section 3: the eleven opcodes select their commands whatever the payload, and the
other 245 values select none. -/
def Obligations.OpcodeMapIsExact : Prop :=
  (∀ p : Bytes,
    decodeCmd 0x01 p = .ok (.init p) ∧ decodeCmd 0x02 p = .ok (.update p) ∧
    decodeCmd 0x03 p = .ok (.sum p) ∧ decodeCmd 0x04 p = .ok (.blocksize p) ∧
    decodeCmd 0x05 p = .ok (.save p) ∧ decodeCmd 0x06 p = .ok (.restore p) ∧
    decodeCmd 0x07 p = .ok (.status p) ∧ decodeCmd 0x10 p = .ok (.clmul64 p) ∧
    decodeCmd 0x11 p = .ok (.reduce p) ∧ decodeCmd 0x12 p = .ok (.mul p) ∧
    decodeCmd 0x13 p = .ok (.double p)) ∧
  (∀ (op : Byte) (p : Bytes),
    (op = 0x00 ∨ (0x08 ≤ op.toNat ∧ op.toNat ≤ 0x0F) ∨ 0x14 ≤ op.toNat) ↔
      decodeCmd op p = .error (.illegalOp op))

/-- Rules R42, R87: an illegal opcode raises IllegalOp, code 0x06, whatever its payload and the phase,
changes no state and returns the empty result. -/
def Obligations.IllegalOpcodeRaisesIllegalOp : Prop :=
  ∀ (op : Byte) (p : Bytes) (s : State), p.length < 2 ^ 32 →
    (op = 0x00 ∨ (0x08 ≤ op.toNat ∧ op.toNat ≤ 0x0F) ∨ 0x14 ≤ op.toNat) →
    execCommand op p s = .next { s with responses := s.responses ++ [.error .illegalOp] } ∧
    (Response.error .illegalOp).status = 0x06 ∧ (Response.error .illegalOp).result = []

/-- The six command frames of 95_test_vectors.md section 2.9 decode to their commands. -/
def Obligations.SpecFramesDecode : Prop :=
  decodeFrame [0x07, 0, 0, 0, 0] = .ok (.status []) ∧
  decodeFrame [0x03, 0, 0, 0, 0] = .ok (.sum []) ∧
  decodeFrame [0x03, 1, 0, 0, 0, 0] = .ok (.sum [0]) ∧
  decodeFrame [0x04, 0, 0, 0, 0] = .ok (.blocksize []) ∧
  decodeFrame [0x02, 0x20, 0, 0, 0, 0x4f, 0x4f, 0x95, 0x66, 0x8c, 0x83, 0xdf, 0xb6, 0x40, 0x17, 0x62,
    0xbb, 0x2d, 0x01, 0xa2, 0x62, 0xd1, 0xa2, 0x4d, 0xdd, 0x27, 0x21, 0xd0, 0x06, 0xbb, 0xe4, 0x5f, 0x20,
    0xd3, 0xc9, 0xf3, 0x62] = .ok (.update [0x4f, 0x4f, 0x95, 0x66, 0x8c, 0x83, 0xdf, 0xb6, 0x40, 0x17,
    0x62, 0xbb, 0x2d, 0x01, 0xa2, 0x62, 0xd1, 0xa2, 0x4d, 0xdd, 0x27, 0x21, 0xd0, 0x06, 0xbb, 0xe4, 0x5f,
    0x20, 0xd3, 0xc9, 0xf3, 0x62]) ∧
  decodeFrame [0x01, 0x10, 0, 0, 0, 0x25, 0x62, 0x93, 0x47, 0x58, 0x92, 0x42, 0x76, 0x1d, 0x31, 0xf8,
    0x26, 0xba, 0x4b, 0x75, 0x7b] = .ok (.init [0x25, 0x62, 0x93, 0x47, 0x58, 0x92, 0x42, 0x76, 0x1d,
    0x31, 0xf8, 0x26, 0xba, 0x4b, 0x75, 0x7b])

/-- Rules R38, R39: the response frame is STATUS, RLEN and RESULT; an error has m = 0; the status
codes are 0 to 6; and the frame gives the response back. -/
def Obligations.ResponseFrameFormat : Prop :=
  (∀ r : Response, r.result.length < 2 ^ 32 →
    r.frame.length = 5 + r.result.length ∧ r.frame[0]? = some r.status ∧
    leNat (slice r.frame 1 5) = r.result.length ∧ r.frame.drop 5 = r.result ∧
    (r.status ≠ 0 → r.result = []) ∧ r.status.toNat ≤ 6 ∧ Response.ofFrame r.frame = some r) ∧
  (∀ b : Bytes, (Response.ok b).status = 0x00) ∧
  (Response.error .keySize).status = 0x01 ∧ (Response.error .blockSize).status = 0x02 ∧
  (Response.error .stateFormat).status = 0x03 ∧ (Response.error .notReady).status = 0x04 ∧
  (Response.error .operandSize).status = 0x05 ∧ (Response.error .illegalOp).status = 0x06

/-- 30_encoding.md section 4: a command line reads back as the command it was written from. What the
notation leaves open is the model's (assumption 9). -/
def Obligations.CommandLineRoundTrip : Prop :=
  ∀ (op : Byte) (p : Bytes), parseLine (renderCommand op p) = some (op, p)

/-! ## The step -/

/-- 20_memory.md section 1: a step takes the one command on the port, or the host's next one when the
port is empty, and runs it on the state without it: whatever its opcode, it is `execCommand` of the pair
in the frame; for a frame that decodes it is `exec` of the command decoded; for an illegal opcode it
answers IllegalOp and changes nothing else. The host's list is the model's DESIGN CHOICE (assumption
3). -/
def Obligations.StepRunsTheDecodedCommand : Prop :=
  ∀ (s u : State) (f : Bytes),
    (s.cmdPort = [f] ∧ u = { s with cmdPort := [] }) ∨
      (∃ rest, s.cmdPort = [] ∧ s.script = f :: rest ∧ u = { s with script := rest }) →
    (∀ op p, parseFrame f = some (op, p) → step s = execCommand op p u) ∧
    (∀ i, decodeFrame f = .ok i → step s = exec i u) ∧
    (∀ op, decodeFrame f = .error (.illegalOp op) →
      step s = .next { u with responses := u.responses ++ [.error .illegalOp] })

/-- 20_memory.md section 1: a step answers exactly when nothing is to do or the one command it takes, from
the port or else from the host's list, is a frame. The idle step (assumption 4) and the host's list
(assumption 3) are the model's DESIGN CHOICES. -/
def Obligations.StepAnswersExactlyWithinTheContract : Prop :=
  ∀ s : State, (∃ t, step s = .next t) ↔
    (s.cmdPort = [] ∧ s.script = []) ∨
    (∃ f, s.cmdPort = [f] ∧ isFrame f = true) ∨
    (∃ f rest, s.cmdPort = [] ∧ s.script = f :: rest ∧ isFrame f = true)

/-- Rule R101: a second command presented before the first has answered has no meaning. -/
def Obligations.OverlappingCommandsAreRefused : Prop :=
  ∀ (s : State) (f g : Bytes), s.cmdPort = [f] → step (s.present g) = .refused .overlappingCommands

/-- Rule R25: `exec` is total; every command produces exactly one response. -/
def Obligations.EveryCommandGetsOneResponse : Prop :=
  ∀ (op : Byte) (p : Bytes) (s : State), p.length < 2 ^ 32 →
    ∃ t r, execCommand op p s = .next t ∧ t.responses = s.responses ++ [r]

/-- 20_memory.md section 1 and 93_implementation_defined.md section 1 (U10): a meaning answers exactly for
the payloads a frame can express. -/
def Obligations.ExecAnswersExactlyWellFormedCommands : Prop :=
  ∀ (i : Instr) (s : State),
    (i.WellFormed → ∃ t, exec i s = .next t) ∧
    (¬ i.WellFormed → exec i s = .refused .payloadTooLong)

/-- 20_memory.md section 5: running the host's commands one step each, with nothing else on the port, is
executing them in the order issued, illegal opcodes among them. The host's list is the model's DESIGN
CHOICE (assumption 3). -/
def Obligations.RunOfScriptExecutesInOrder : Prop :=
  ∀ (cs : List (Byte × Bytes)) (s : State), (∀ c ∈ cs, c.2.length < 2 ^ 32) →
    s.cmdPort = [] → s.script = [] →
    core.run cs.length { s with script := cs.map fun c => frameOf c.1 c.2 } = execCommands cs s

/-! ## The accumulator commands -/

/-- Rule R70. In READY the old accumulator is kept when the length is wrong (decision D15). -/
def Obligations.InitStartsAnAccumulator : Prop :=
  ∀ (p : Bytes) (s : State), p.length < 2 ^ 32 →
    (Instr.init p).opcode = 0x01 ∧
    (p.length ≠ 16 →
      exec (.init p) s = .next { s with responses := s.responses ++ [.error .keySize] }) ∧
    (p.length = 16 →
      exec (.init p) s = .next { s with
        phase := .ready, h := le 128 p, y := 0, responses := s.responses ++ [.ok []] })

/-- Rule R71: Y absorbs every block X_i = decode(payload[16(i-1)..16i]) in input order, or nothing. -/
def Obligations.UpdateAbsorbsTheBlocksInOrder : Prop :=
  ∀ (p : Bytes) (s : State), p.length < 2 ^ 32 →
    (Instr.update p).opcode = 0x02 ∧
    (s.phase = .uninit →
      exec (.update p) s = .next { s with responses := s.responses ++ [.error .notReady] }) ∧
    (s.phase = .ready → (p.length = 0 ∨ p.length % 16 ≠ 0) →
      exec (.update p) s = .next { s with responses := s.responses ++ [.error .blockSize] }) ∧
    (∀ k, s.phase = .ready → p.length = 16 * k → 1 ≤ k →
      exec (.update p) s = .next { s with
        y := Nat.fold k (fun i _ t => mul (t ^^^ le 128 (slice p (16 * i) (16 * (i + 1)))) s.h) s.y
        responses := s.responses ++ [.ok []] })

/-- Rule R72. -/
def Obligations.SumReadsTheDigest : Prop :=
  ∀ (p : Bytes) (s : State), p.length < 2 ^ 32 →
    (Instr.sum p).opcode = 0x03 ∧
    (s.phase = .uninit →
      exec (.sum p) s = .next { s with responses := s.responses ++ [.error .notReady] }) ∧
    (s.phase = .ready → p.length ≠ 0 →
      exec (.sum p) s = .next { s with responses := s.responses ++ [.error .operandSize] }) ∧
    (s.phase = .ready → p.length = 0 →
      exec (.sum p) s = .next { s with responses := s.responses ++ [.ok (encodeElem s.y)] })

/-- Rule R73. -/
def Obligations.BlocksizeReturnsSixteen : Prop :=
  ∀ (p : Bytes) (s : State), p.length < 2 ^ 32 →
    (Instr.blocksize p).opcode = 0x04 ∧
    (p.length ≠ 0 →
      exec (.blocksize p) s = .next { s with responses := s.responses ++ [.error .operandSize] }) ∧
    (p.length = 0 →
      exec (.blocksize p) s = .next { s with responses := s.responses ++ [.ok [0x10]] })

/-- Rule R74. -/
def Obligations.StatusReturnsThePhase : Prop :=
  ∀ (p : Bytes) (s : State), p.length < 2 ^ 32 →
    (Instr.status p).opcode = 0x07 ∧
    (p.length ≠ 0 →
      exec (.status p) s = .next { s with responses := s.responses ++ [.error .operandSize] }) ∧
    (p.length = 0 → s.phase = .ready →
      exec (.status p) s = .next { s with responses := s.responses ++ [.ok [0x01]] }) ∧
    (p.length = 0 → s.phase = .uninit →
      exec (.status p) s = .next { s with responses := s.responses ++ [.ok [0x00]] })

/-- Rule R78, for the open parameter STATE_TAG. -/
def Obligations.SaveExportsTheState : Prop :=
  ∀ (p : Bytes) (s : State), p.length < 2 ^ 32 →
    (Instr.save p).opcode = 0x05 ∧
    (s.phase = .uninit →
      exec (.save p) s = .next { s with responses := s.responses ++ [.error .notReady] }) ∧
    (s.phase = .ready → p.length ≠ 0 →
      exec (.save p) s = .next { s with responses := s.responses ++ [.error .operandSize] }) ∧
    (s.phase = .ready → p.length = 0 →
      exec (.save p) s = .next { s with
        responses := s.responses ++ [.ok (Config.stateTag ++ encodeElem s.h ++ encodeElem s.y)] })

/-- Rule R79, for the open parameter STATE_TAG. A failed RESTORE keeps the old accumulator
(decision D15). -/
def Obligations.RestoreImportsAState : Prop :=
  (∀ (p : Bytes) (s : State), p.length < 2 ^ 32 →
    (Instr.restore p).opcode = 0x06 ∧
    ((p.length ≠ Config.stateTag.length + 32 ∨ slice p 0 Config.stateTag.length ≠ Config.stateTag) →
      exec (.restore p) s = .next { s with responses := s.responses ++ [.error .stateFormat] })) ∧
  (∀ (hb yb : Bytes) (s : State), hb.length = 16 → yb.length = 16 →
    exec (.restore (Config.stateTag ++ hb ++ yb)) s = .next { s with
      phase := .ready, h := le 128 hb, y := le 128 yb, responses := s.responses ++ [.ok []] })

/-! ## The datapath commands -/

/-- Rule R50. -/
def Obligations.Clmul64ReturnsTheProduct : Prop :=
  ∀ (p : Bytes) (s : State), p.length < 2 ^ 32 →
    (Instr.clmul64 p).opcode = 0x10 ∧
    (p.length ≠ 16 →
      exec (.clmul64 p) s = .next { s with responses := s.responses ++ [.error .operandSize] }) ∧
    (p.length = 16 →
      exec (.clmul64 p) s = .next { s with responses := s.responses ++
        [.ok (bytesOf (ctmul (le 64 (slice p 0 8)) (le 64 (slice p 8 16))).2 ++
          bytesOf (ctmul (le 64 (slice p 0 8)) (le 64 (slice p 8 16))).1)] })

/-- Rule R58 (the factor x^(-128) of this command alone is decision D18). -/
def Obligations.ReduceReturnsTheReduction : Prop :=
  ∀ (p : Bytes) (s : State), p.length < 2 ^ 32 →
    (Instr.reduce p).opcode = 0x11 ∧
    (p.length ≠ 32 →
      exec (.reduce p) s = .next { s with responses := s.responses ++ [.error .operandSize] }) ∧
    (p.length = 32 →
      exec (.reduce p) s = .next { s with
        responses := s.responses ++ [.ok (encodeElem (redc (le 256 p)))] })

/-- Rule R61 (the factor x^(-128) of this command alone is decision D18). -/
def Obligations.MulReturnsTheFieldProduct : Prop :=
  ∀ (p : Bytes) (s : State), p.length < 2 ^ 32 →
    (Instr.mul p).opcode = 0x12 ∧
    (p.length ≠ 32 →
      exec (.mul p) s = .next { s with responses := s.responses ++ [.error .operandSize] }) ∧
    (p.length = 32 →
      exec (.mul p) s = .next { s with responses := s.responses ++
        [.ok (encodeElem (mul (le 128 (slice p 0 16)) (le 128 (slice p 16 32))))] })

/-- Rule R64. -/
def Obligations.DoubleReturnsTheDouble : Prop :=
  ∀ (p : Bytes) (s : State), p.length < 2 ^ 32 →
    (Instr.double p).opcode = 0x13 ∧
    (p.length ≠ 16 →
      exec (.double p) s = .next { s with responses := s.responses ++ [.error .operandSize] }) ∧
    (p.length = 16 →
      exec (.double p) s = .next { s with
        responses := s.responses ++ [.ok (encodeElem (dbl (le 128 p)))] })

/-- 30_encoding.md section 4: XORDBL of two elements is DOUBLE of their exclusive or. -/
def Obligations.XorDoubleDoublesTheSum : Prop :=
  ∀ (a b : Bytes) (s : State), a.length = 16 → b.length = 16 →
    execAll (xordblProgram a b) s = .next { s with
      responses := s.responses ++ [.ok (encodeElem (dbl (le 128 a ^^^ le 128 b)))] }

/-! ## Frames of the meanings, errors, phases -/

/-- The frame of every command (10_state.md section 5, 20_memory.md section 4): the ports keep what
they hold but for one response more; only INIT and RESTORE write PHASE and H; only they and UPDATE
write Y. -/
def Obligations.OnlyTheListedRegistersAreWritten : Prop :=
  ∀ (i : Instr) (s t : State), exec i s = .next t →
    (∃ r, t.responses = s.responses ++ [r]) ∧ t.cmdPort = s.cmdPort ∧ t.script = s.script ∧
    ((∀ p, i ≠ .init p ∧ i ≠ .restore p) → t.phase = s.phase ∧ t.h = s.h) ∧
    ((∀ p, i ≠ .init p ∧ i ≠ .restore p ∧ i ≠ .update p) → t.y = s.y)

/-- 20_memory.md section 4: result lengths are fixed per command, an error's is 0; the commands outside
INIT, UPDATE and RESTORE have no effect, so that repeating one returns the same response. -/
def Obligations.ResultLengthsAndRepeatableReads : Prop :=
  ∀ (i : Instr) (s t : State), exec i s = .next t →
    (∀ b, t.responses = s.responses ++ [.ok b] → b.length = resultLength i) ∧
    (∀ e, t.responses = s.responses ++ [.error e] → (Response.error e).result.length = 0) ∧
    (changesState i = false → ∃ r, t = { s with responses := s.responses ++ [r] } ∧
      exec i t = .next { t with responses := t.responses ++ [r] })

/-- Rules R82 to R87: each error is raised by its causes and by nothing else, with its code. NotReady
stands before the length checks (rule R89). -/
def Obligations.EachErrorHasItsCausesAndCode : Prop :=
  ∀ (op : Byte) (p : Bytes) (s t : State), execCommand op p s = .next t →
    (t.responses = s.responses ++ [.error .keySize] ↔ op = 0x01 ∧ p.length ≠ 16) ∧
    (t.responses = s.responses ++ [.error .blockSize] ↔
      op = 0x02 ∧ s.phase = .ready ∧ (p.length = 0 ∨ p.length % 16 ≠ 0)) ∧
    (t.responses = s.responses ++ [.error .stateFormat] ↔
      op = 0x06 ∧ (p.length ≠ Config.stateTag.length + 32 ∨
        p.take Config.stateTag.length ≠ Config.stateTag)) ∧
    (t.responses = s.responses ++ [.error .notReady] ↔
      (op = 0x02 ∨ op = 0x03 ∨ op = 0x05) ∧ s.phase = .uninit) ∧
    (t.responses = s.responses ++ [.error .operandSize] ↔
      ((op = 0x03 ∨ op = 0x05) ∧ s.phase = .ready ∧ p.length ≠ 0) ∨
      ((op = 0x04 ∨ op = 0x07) ∧ p.length ≠ 0) ∨
      ((op = 0x10 ∨ op = 0x13) ∧ p.length ≠ 16) ∨
      ((op = 0x11 ∨ op = 0x12) ∧ p.length ≠ 32)) ∧
    (t.responses = s.responses ++ [.error .illegalOp] ↔
      op = 0x00 ∨ (0x08 ≤ op.toNat ∧ op.toNat ≤ 0x0F) ∨ 0x14 ≤ op.toNat) ∧
    ErrorKind.keySize.code = 0x01 ∧ ErrorKind.blockSize.code = 0x02 ∧
    ErrorKind.stateFormat.code = 0x03 ∧ ErrorKind.notReady.code = 0x04 ∧
    ErrorKind.operandSize.code = 0x05 ∧ ErrorKind.illegalOp.code = 0x06

/-- Rule R89: a command reports at most one error, the first that applies in the rule's order. -/
def Obligations.FirstApplicableErrorIsReported : Prop :=
  ∀ (op : Byte) (p : Bytes) (s : State), p.length < 2 ^ 32 →
    (∀ e, firstError op p s.phase = some e →
      execCommand op p s = .next { s with responses := s.responses ++ [.error e] }) ∧
    (firstError op p s.phase = none →
      ∃ t b, execCommand op p s = .next t ∧ t.responses = s.responses ++ [.ok b])

/-- Rule R90: a command that raises an error leaves PHASE, H and Y, and all else but its one response,
as they were, and the response carries the code and the empty result. -/
def Obligations.ErrorsLeaveTheState : Prop :=
  ∀ (op : Byte) (p : Bytes) (s t : State) (e : ErrorKind), execCommand op p s = .next t →
    t.responses = s.responses ++ [.error e] →
    t = { s with responses := s.responses ++ [.error e] } ∧
    (Response.error e).status = e.code ∧ e.code ≠ 0 ∧ (Response.error e).result = []

/-- 60_exceptions.md section 1: whether a command errs, and with which error, depends on the opcode, the
payload length, the tag bytes of a RESTORE payload and PHASE alone. -/
def Obligations.ErrorsDependOnPublicDataOnly : Prop :=
  ∀ (op : Byte) (p q : Bytes) (s t s' t' : State) (e : ErrorKind), p.length = q.length →
    (op = 0x06 → p.take Config.stateTag.length = q.take Config.stateTag.length) →
    s.phase = t.phase → execCommand op p s = .next s' → execCommand op q t = .next t' →
    (s'.responses = s.responses ++ [.error e] ↔ t'.responses = t.responses ++ [.error e])

/-- 10_state.md section 2: of everything that can happen at the block's boundary, only reset returns
PHASE to UNINIT, and only a step that runs INIT or RESTORE with success sets it to READY. -/
def Obligations.OnlyResetClearsThePhase : Prop :=
  ∀ (e : Event) (s t : State), applyEvent e s = .next t →
    (s.phase = .ready → t.phase = .uninit → e = .reset) ∧
    (s.phase = .uninit → t.phase = .ready →
      ∃ i u, (∃ p, i = .init p ∨ i = .restore p) ∧ e = .run ∧ nextFrame s = .frame (encode i) u ∧
        exec i u = .next t ∧ t.responses = s.responses ++ [.ok []])

/-- 70_reset_and_hazards.md section 1: reset gives PHASE = UNINIT from any state and abandons a command
on the port with no response. Nothing is said of H and Y, which are unspecified. That the host's own
list of commands survives, and that a reset ends an overlap of commands too, are the model's DESIGN
CHOICES (assumption 5). -/
def Obligations.ResetAbandonsTheCommand : Prop :=
  ∀ s : State, s.applyReset.phase = .uninit ∧ s.applyReset.statusByte = 0x00 ∧
    s.applyReset.cmdPort = [] ∧ s.applyReset.responses = s.responses ∧
    ∀ t : State, t.phase = .uninit → t.cmdPort = [] → t.responses = s.responses →
      t.script = s.script → SameView s.applyReset t

/-- 10_state.md sections 2 and 6, 70_reset_and_hazards.md section 2: after reset PHASE = UNINIT and STATUS
= 0x00; UPDATE, SUM and SAVE raise NotReady, and every other command, with a payload it accepts, works
straight after reset. -/
def Obligations.ResetStateIsUninitialised : Prop :=
  State.reset.phase = .uninit ∧ State.reset.statusByte = 0x00 ∧
  (∀ i : Instr, i.WellFormed → needsReady i = true →
    exec i State.reset = .next { State.reset with responses := [.error .notReady] }) ∧
  ∀ i : Instr, i.WellFormed → needsReady i = false → acceptsLength i = true → tagMatches i = true →
    ∃ t b, exec i State.reset = .next t ∧ t.responses = [.ok b]

/-- 10_state.md section 6: no sequence of commands can observe H or Y while PHASE = UNINIT. A step takes
two states that look alike to two states that look alike, the same responses given. -/
def Obligations.UninitialisedRegistersAreUnobservable : Prop :=
  ∀ s t : State, SameView s t →
    (∀ s', step s = .next s' → ∃ t', step t = .next t' ∧ SameView s' t') ∧
    (∀ r, step s = .refused r → step t = .refused r)

/-- 10_state.md section 2: no command but SAVE returns H, and none but SUM and SAVE returns Y: the
response of any other does not depend on them. -/
def Obligations.OnlySaveReturnsTheKey : Prop :=
  ∀ (i : Instr) (s s' : State) (k y : Elem), exec i s = .next s' →
    ((∀ p, i ≠ .save p) → ∃ t, exec i { s with h := k } = .next t ∧ t.responses = s'.responses) ∧
    ((∀ p, i ≠ .save p ∧ i ≠ .sum p) →
      ∃ t, exec i { s with h := k, y := y } = .next t ∧ t.responses = s'.responses)

/-! ## Invariants of a run -/

/-- 20_memory.md sections 1 and 4: the contract of the host (one command at a time, each a frame) and the
result lengths hold along every run: each step keeps them. -/
def Obligations.StepKeepsSafe : Prop :=
  ∀ s t : State, Safe s → step s = .next t → Safe t

/-- 20_memory.md section 1 and 60_exceptions.md section 1: within the contract the block always answers;
it never stops. That a step with nothing to do answers (assumption 4), and that the host's list gives the
next command (assumption 3), are the model's DESIGN CHOICES. -/
def Obligations.SafeStatesAlwaysStep : Prop :=
  ∀ s : State, Safe s → ∃ t, step s = .next t ∧
    (s.cmdPort ≠ [] ∨ s.script ≠ [] → ∃ r, t.responses = s.responses ++ [r])

/-- The invariant of `StepKeepsSafe` (20_memory.md sections 1 and 4) holds after reset, whatever frames the
host then has to present. That nothing is on the ports at reset, and the host's list, are the model's
DESIGN CHOICES (assumptions 3 and 6). -/
def Obligations.ResetIsSafe : Prop :=
  Safe State.reset ∧
  ∀ fs : List Bytes, (∀ f ∈ fs, isFrame f = true) → Safe { State.reset with script := fs }

/-! ## Arithmetic -/

/-- Rule R8: bit i of the carry-less product is the exclusive or of all `a[j] & b[i-j]`; the product
stands for the product of the polynomials; and its top stored bit is 0, "Bit m+n-1 of the stored
m+n-bit form is always 0", which the spec marks [derived]. -/
def Obligations.ClmulIsThePolynomialProduct : Prop :=
  ∀ (m n : Nat) (a : BitVec m) (b : BitVec n), 1 ≤ m → 1 ≤ n →
    (∀ i, i < m + n → (clmul a b).getLsbD i =
      Nat.fold m (fun j _ acc => acc ^^ (decide (j ≤ i) && (a.getLsbD j && b.getLsbD (i - j))))
        false) ∧
    poly (clmul a b) = poly a * poly b ∧
    (clmul a b).getLsbD (m + n - 1) = false

/-- 40_clmul.md section 1: the unit returns the high and low words of the product, and, as the spec
infers, "p[127] = hi[63] = 0 always" [derived]. -/
def Obligations.CtmulSplitsTheProduct : Prop :=
  ∀ x y : Word64,
    ((ctmul x y).1 ++ (ctmul x y).2 : BitVec 128) = clmul x y ∧ (ctmul x y).1.getLsbD 63 = false

/-- 40_clmul.md section 1, the laws of `ctmul`: commutative, zero and one, linear, powers of two,
squares, of which the spec marks all but the first [derived]. -/
def Obligations.CtmulLaws : Prop :=
  (∀ x y : Word64, ctmul x y = ctmul y x) ∧
  (∀ x : Word64, ctmul x 0 = (0, 0) ∧ ctmul x 1 = (0, x)) ∧
  (∀ x x' y : Word64, ctmul (x ^^^ x') y =
    ((ctmul x y).1 ^^^ (ctmul x' y).1, (ctmul x y).2 ^^^ (ctmul x' y).2)) ∧
  (∀ (x : Word64) (k : Nat), 1 ≤ k → k ≤ 63 →
    ctmul x (1#64 <<< k) = (x >>> (64 - k), x <<< k)) ∧
  (∀ (x : Word64) (j : Nat), j < 64 → (clmul x x).getLsbD (2 * j) = x.getLsbD j ∧
    (clmul x x).getLsbD (2 * j + 1) = false)

/-- 40_clmul.md section 3: the four-product and the three-product arrangements give the 256-bit
product (the first [derived] in the spec, the second from general knowledge). -/
def Obligations.WordProductsGiveTheWideProduct : Prop :=
  ∀ a b : Elem, clmulFour a b = clmul a b ∧ clmulThree a b = clmul a b

/-- 00_scope.md section 4: `mod_p(v)` is the unique 128-bit vector congruent to v modulo p, and the
loop given there computes it ([derived] in the spec). No command returns it of a product. -/
def Obligations.ModPIsTheResidue : Prop :=
  ∀ (w : Nat) (v : BitVec w), ModEqP (poly (modP v)) (poly v) ∧
    ∀ r : Elem, ModEqP (poly r) (poly v) → r = modP v

/-- Rule R53: `redc(P)` is the unique r with `poly(r) * x^128` congruent to `poly(P)` modulo p. -/
def Obligations.RedcDividesByX128 : Prop :=
  ∀ p : Wide, ModEqP (poly (redc p) * Polynomial.X ^ 128) (poly p) ∧
    ∀ r : Elem, ModEqP (poly r * Polynomial.X ^ 128) (poly p) → r = redc p

/-- Rule R56: the word form of the reduction equals the reduction on every 256-bit input. -/
def Obligations.WordReductionEqualsRedc : Prop :=
  ∀ p : Wide, redcWords p = redc p

/-- 41_reduce.md section 1, the laws of `redc`: linear, split, consistent with the residue, identity on a
high half, halving; with the three constants. The spec marks all of them [derived]. -/
def Obligations.RedcLaws : Prop :=
  (∀ p q : Wide, redc (p ^^^ q) = redc p ^^^ redc q) ∧
  (∀ p : Wide, redc p = p.extractLsb' 128 128 ^^^ redc ((p.extractLsb' 0 128).setWidth 256)) ∧
  (∀ p : Wide, modP ((redc p).setWidth 256 <<< 128) = modP p) ∧
  (∀ a : Elem, redc (a.setWidth 256 <<< 128) = a) ∧
  (∀ a : Elem, redc (a.setWidth 256) = halfTimes 128 a) ∧
  redc (1#256) = XM128 ∧ redc (RPOLY.setWidth 256) = 1 ∧ redc (P129.setWidth 256) = 0

/-- Rule R59: `mul(a, b) * x^128` is congruent to `a * b` modulo p. -/
def Obligations.MulIsTheProductOverX128 : Prop :=
  ∀ a b : Elem, mul a b = redc (clmul a b) ∧
    ModEqP (poly (mul a b) * Polynomial.X ^ 128) (poly a * poly b)

/-- 42_field_ops.md section 1, the laws of `mul`: commutative, associative, distributive, zero, the
identity RPOLY, the relation to the plain product, and to `dbl`. The spec marks all but the first two
[derived]. -/
def Obligations.MulLaws : Prop :=
  (∀ a b : Elem, mul a b = mul b a) ∧
  (∀ a b c : Elem, mul (mul a b) c = mul a (mul b c)) ∧
  (∀ a b c : Elem, mul (a ^^^ b) c = mul a c ^^^ mul b c) ∧
  (∀ a : Elem, mul a 0 = 0 ∧ mul a RPOLY = a) ∧
  (∀ a b : Elem, mul a b = modP (clmul (modP (clmul a b)) XM128)) ∧
  (∀ a b : Elem, mul (dbl a) b = dbl (mul a b) ∧ dbl a = mul a X129)

/-- Rule R68: every formulation of `mul` agrees on all operand pairs: the reduction of rule R53 (the one
r with `r * x^128` congruent to the product), the bit-serial form of rule R54 and the word form of rule
R56, on the product of rule R8 and on the word products of rules R51 and R52. -/
def Obligations.AllMultipliersAgree : Prop :=
  ∀ a b : Elem, ∀ P ∈ [clmul a b, clmulFour a b, clmulThree a b],
    redc P = mul a b ∧ redcWords P = mul a b ∧
    ∀ r : Elem, ModEqP (poly r * Polynomial.X ^ 128) (poly P) ↔ r = mul a b

/-- Rule R62: the doubler in words is the doubler, and it multiplies by x modulo p with no factor
x^(-128). -/
def Obligations.DoubleMultipliesByX : Prop :=
  (∀ a : Elem, dbl a = (a <<< 1) ^^^ (if a.getLsbD 127 = true then RPOLY else 0)) ∧
  (∀ a : Elem, loWord (dbl a) = (loWord a <<< 1) ^^^ (if a.getLsbD 127 = true then 1 else 0) ∧
    hiWord (dbl a) = ((hiWord a <<< 1) ||| (loWord a >>> 63)) ^^^
      (if a.getLsbD 127 = true then 0xC200000000000000#64 else 0)) ∧
  (∀ a : Elem, dblWords a = dbl a ∧ ModEqP (poly (dbl a)) (Polynomial.X * poly a)) ∧
  ∃ a : Elem, dbl a ≠ mul a 2

/-- 42_field_ops.md section 2: the mask form, the 128-fold doubling sequence, and, [derived] in the spec,
linearity and the inverse `half`. -/
def Obligations.DoublingSequenceAndInverse : Prop :=
  (∀ a : Elem, dblMasked a = dbl a) ∧
  (∀ k : Nat, k ≤ 127 → dblTimes k 1 = 1#128 <<< k) ∧ dblTimes 128 1 = RPOLY ∧
  (∀ a b : Elem, dbl (a ^^^ b) = dbl a ^^^ dbl b) ∧
  (∀ a : Elem, half (dbl a) = a ∧ dbl (half a) = a)

/-- Rule R27: bit j of byte k is bit 8k+j of the element, in both directions. -/
def Obligations.ByteOrderIsLittleEndian : Prop :=
  (∀ b : Bytes, b.length = 16 →
    (decodeElem b).toNat = ∑ k ∈ Finset.range 16, b[k]!.toNat * 2 ^ (8 * k) ∧
    (∀ k j : Nat, k < 16 → j < 8 → (decodeElem b).getLsbD (8 * k + j) = b[k]!.getLsbD j) ∧
    loWord (decodeElem b) = le 64 (slice b 0 8) ∧ hiWord (decodeElem b) = le 64 (slice b 8 16)) ∧
  (∀ a : Elem, (encodeElem a).length = 16 ∧
    ∀ k : Nat, k < 16 → (encodeElem a)[k]! = a.extractLsb' (8 * k) 8)

/-- 42_field_ops.md section 3: `decode` and `encode` are inverse to each other; and, as consequences the
spec marks [derived], exclusive or may be done on bytes, and states with different Y return different
digests. -/
def Obligations.SerializerIsABijection : Prop :=
  (∀ b : Bytes, b.length = 16 → encodeElem (decodeElem b) = b) ∧
  (∀ e : Elem, decodeElem (encodeElem e) = e) ∧
  (∀ b c : Bytes, b.length = 16 → c.length = 16 →
    decodeElem b ^^^ decodeElem c = decodeElem (List.zipWith (· ^^^ ·) b c)) ∧
  encodeElem 0 = List.replicate 16 0 ∧
  (∀ d e : Elem, encodeElem d = encodeElem e → d = e)

/-! ## Whole sequences -/

/-- 43_accumulator.md section 3: any cutting of a message into UPDATE commands at block boundaries leaves
the same registers ([derived] in the spec). -/
def Obligations.ChunkingDoesNotMatter : Prop :=
  ∀ (cs : List Bytes) (s : State), s.phase = .ready → cs ≠ [] →
    (∀ c ∈ cs, 1 ≤ c.length ∧ c.length % 16 = 0) → cs.flatten.length < 2 ^ 32 →
    ∃ t u, execAll (updateEach cs) s = .next t ∧ exec (.update cs.flatten) s = .next u ∧
      t.phase = u.phase ∧ t.h = u.h ∧ t.y = u.y ∧
      t.responses = s.responses ++ List.replicate cs.length (.ok []) ∧
      u.responses = s.responses ++ [.ok []]

/-- 43_accumulator.md section 3, the closed form: POLYVAL of a key and s blocks, from any state, answers
the exclusive or over i of `mul(X_i, h^(s-i+1))` ([derived] in the spec). -/
def Obligations.PolyvalComputesTheClosedForm : Prop :=
  ∀ (key : Bytes) (xs : List Bytes) (s : State), key.length = 16 → (∀ x ∈ xs, x.length = 16) →
    16 * xs.length < 2 ^ 32 →
    ∃ t, execAll (polyvalProgram key xs) s = .next t ∧ t.phase = .ready ∧ t.h = le 128 key ∧
      t.y = closedForm (le 128 key) (xs.map (le 128)) ∧
      t.responses.getLast? =
        some (.ok (encodeElem (closedForm (le 128 key) (xs.map (le 128)))))

/-- 44_state_serialization.md section 3: the accumulator restored from a saved blob, on any instance in
any state, gives the same responses to every later sequence of commands, illegal opcodes among them, as
the original ([derived] in the spec). -/
def Obligations.RestoredStateBehavesAsSaved : Prop :=
  ∀ s t : State, s.phase = .ready →
    ∃ s₁ t₁ blob, exec (.save []) s = .next s₁ ∧ s₁.responses = s.responses ++ [.ok blob] ∧
      exec (.restore blob) t = .next t₁ ∧
      t₁.phase = .ready ∧ t₁.h = s.h ∧ t₁.y = s.y ∧
      (∀ cs : List (Byte × Bytes), (∀ c ∈ cs, c.2.length < 2 ^ 32) →
        ∃ s₂ t₂ rs, execCommands cs s₁ = .next s₂ ∧ execCommands cs t₁ = .next t₂ ∧
          s₂.responses = s₁.responses ++ rs ∧ t₂.responses = t₁.responses ++ rs) ∧
      (∃ t₂, exec (.save []) t₁ = .next t₂ ∧ t₂.responses = t₁.responses ++ [.ok blob])

/-- 10_state.md section 7: a step of one instance, or a command presented to it, reads and writes that
instance only. -/
def Obligations.InstancesAreIndependent : Prop :=
  ∀ (k : Nat) (i j : Fin k) (sys sys' : System k) (f : Bytes), i ≠ j →
    (System.present i f sys)[j] = sys[j] ∧
    (System.present i f sys)[i] = (sys[i]).present f ∧
    (System.step i sys = .next sys' ↔ step sys[i] = .next sys'[i] ∧
      ∀ l : Fin k, l ≠ i → sys'[l] = sys[l])
end

