-- ==== Sys2Proof/Laws/Bytes.lean ====
section
/-! SUPPORT. Byte order: the bits of a little-endian value, and that `le` and `bytesOf` undo each
other. -/

namespace Sys2Proof.Laws

theorem length_bytesOf {n : Nat} (v : BitVec n) : (bytesOf v).length = n / 8 := by simp [bytesOf]

theorem length_slice (b : Bytes) (i j : Nat) : (slice b i j).length = min j b.length - i := by
  simp [slice]

theorem getD_slice (b : Bytes) (i j k : Nat) :
    (slice b i j).getD k 0 = if i + k < j then b.getD (i + k) 0 else 0 := by
  simp only [slice, List.getD_eq_getElem?_getD, List.getElem?_drop, List.getElem?_take]
  split <;> rfl

/-- Bit 8k+j of the value is bit j of byte k (20_memory.md rule R27). -/
theorem testBit_leNat (b : Bytes) (k j : Nat) (hj : j < 8) :
    (leNat b).testBit (8 * k + j) = (b.getD k 0).getLsbD j := by
  induction b generalizing k with
  | nil => simp [leNat]
  | cons x xs ih =>
    have hx : x.toNat < 2 ^ 8 := x.isLt
    have key : leNat (x :: xs) = 2 ^ 8 * leNat xs + x.toNat := by simp only [leNat]; omega
    rw [key, Nat.testBit_two_pow_mul_add _ hx]
    cases k with
    | zero => simp [hj, BitVec.getLsbD]
    | succ k =>
      rw [if_neg (by omega), show 8 * (k + 1) + j - 8 = 8 * k + j by omega, ih]
      simp

theorem getLsbD_le (n : Nat) (b : Bytes) (i : Nat) :
    (le n b).getLsbD i = (decide (i < n) && (b.getD (i / 8) 0).getLsbD (i % 8)) := by
  rw [le, BitVec.getLsbD_ofNat, ← testBit_leNat b (i / 8) (i % 8) (Nat.mod_lt _ (by omega)),
    Nat.div_add_mod]

theorem getD_bytesOf {n : Nat} (v : BitVec n) (k : Nat) :
    (bytesOf v).getD k 0 = if k < n / 8 then v.extractLsb' (8 * k) 8 else 0 := by
  simp only [bytesOf, List.getD_eq_getElem?_getD, List.getElem?_map]
  by_cases h : k < n / 8
  · simp [h]
  · simp [h]

/-- The two directions of the byte order, first half: bytes written are bytes read. -/
theorem le_bytesOf {n : Nat} (hn : n % 8 = 0) (v : BitVec n) : le n (bytesOf v) = v := by
  apply BitVec.eq_of_getLsbD_eq
  intro i hi
  rw [getLsbD_le, getD_bytesOf, if_pos (by omega), BitVec.getLsbD_extractLsb',
    show 8 * (i / 8) + i % 8 = i by omega]
  simp [hi, Nat.mod_lt]

theorem bytes_ext {b c : Bytes} (hl : b.length = c.length)
    (h : ∀ k, k < b.length → b.getD k 0 = c.getD k 0) : b = c := by
  refine List.ext_getElem hl fun k hk hk' => ?_
  simpa [List.getD_eq_getElem?_getD, hk, hk'] using h k hk

/-- Second half: the bytes of a value read are the bytes it was read from. -/
theorem bytesOf_le {n : Nat} (b : Bytes) (hb : 8 * b.length = n) : bytesOf (le n b) = b := by
  have hn : n / 8 = b.length := by omega
  refine bytes_ext (by rw [length_bytesOf, hn]) fun k hk => ?_
  rw [length_bytesOf, hn] at hk
  rw [getD_bytesOf, if_pos (by omega)]
  apply BitVec.eq_of_getLsbD_eq
  intro j hj
  rw [BitVec.getLsbD_extractLsb', getLsbD_le, show (8 * k + j) / 8 = k by omega,
    show (8 * k + j) % 8 = j by omega]
  simp [hj, show 8 * k + j < n by omega]

theorem leNat_lt (b : Bytes) : leNat b < 256 ^ b.length := by
  induction b with
  | nil => simp [leNat]
  | cons x xs ih =>
    have hx : x.toNat < 256 := x.isLt
    simp only [leNat, List.length_cons, pow_succ]
    omega

theorem leNat_append (a b : Bytes) : leNat (a ++ b) = leNat a + 256 ^ a.length * leNat b := by
  induction a with
  | nil => simp [leNat]
  | cons x xs ih => simp only [List.cons_append, leNat, ih, List.length_cons, pow_succ]; ring

theorem toNat_le {n : Nat} (b : Bytes) (hb : 8 * b.length ≤ n) : (le n b).toNat = leNat b := by
  have h := leNat_lt b
  have h2 : (256 : Nat) ^ b.length ≤ 2 ^ n := by
    rw [show (256 : Nat) = 2 ^ 8 by norm_num, ← pow_mul]
    exact Nat.pow_le_pow_right (by omega) hb
  simp [le, Nat.mod_eq_of_lt (lt_of_lt_of_le h h2)]

/-- The length field of a frame (30_encoding.md rules R37, R38) reads back as the length. -/
theorem leNat_lengthField (k : Nat) (hk : k < 2 ^ 32) : leNat (bytesOf (BitVec.ofNat 32 k)) = k := by
  have h := congrArg BitVec.toNat (le_bytesOf (n := 32) rfl (BitVec.ofNat 32 k))
  rw [toNat_le _ (by rw [length_bytesOf])] at h
  rw [h, BitVec.toNat_ofNat, Nat.mod_eq_of_lt hk]

end Sys2Proof.Laws
end

