-- ==== Sys2Proof/Laws/State.lean ====
section
/-! SUPPORT. One lemma per field per update of the state. -/

namespace Sys2Proof.Machine

variable (s : State) (r : Response) (h y : Elem) (f : Bytes)

@[simp] theorem emit_phase : (s.emit r).phase = s.phase := rfl
@[simp] theorem emit_h : (s.emit r).h = s.h := rfl
@[simp] theorem emit_y : (s.emit r).y = s.y := rfl
@[simp] theorem emit_cmdPort : (s.emit r).cmdPort = s.cmdPort := rfl
@[simp] theorem emit_responses : (s.emit r).responses = s.responses ++ [r] := rfl
@[simp] theorem emit_script : (s.emit r).script = s.script := rfl

@[simp] theorem load_phase : (s.load h y).phase = .ready := rfl
@[simp] theorem load_h : (s.load h y).h = h := rfl
@[simp] theorem load_y : (s.load h y).y = y := rfl
@[simp] theorem load_cmdPort : (s.load h y).cmdPort = s.cmdPort := rfl
@[simp] theorem load_responses : (s.load h y).responses = s.responses := rfl
@[simp] theorem load_script : (s.load h y).script = s.script := rfl

@[simp] theorem setY_phase : (s.setY y).phase = s.phase := rfl
@[simp] theorem setY_h : (s.setY y).h = s.h := rfl
@[simp] theorem setY_y : (s.setY y).y = y := rfl
@[simp] theorem setY_cmdPort : (s.setY y).cmdPort = s.cmdPort := rfl
@[simp] theorem setY_responses : (s.setY y).responses = s.responses := rfl
@[simp] theorem setY_script : (s.setY y).script = s.script := rfl

@[simp] theorem present_phase : (s.present f).phase = s.phase := rfl
@[simp] theorem present_h : (s.present f).h = s.h := rfl
@[simp] theorem present_y : (s.present f).y = s.y := rfl
@[simp] theorem present_cmdPort : (s.present f).cmdPort = s.cmdPort ++ [f] := rfl
@[simp] theorem present_responses : (s.present f).responses = s.responses := rfl
@[simp] theorem present_script : (s.present f).script = s.script := rfl

@[simp] theorem applyReset_phase : s.applyReset.phase = .uninit := rfl
@[simp] theorem applyReset_cmdPort : s.applyReset.cmdPort = [] := rfl
@[simp] theorem applyReset_responses : s.applyReset.responses = s.responses := rfl
@[simp] theorem applyReset_script : s.applyReset.script = s.script := rfl

end Sys2Proof.Machine
end

