-- ==== Sys2Proof/Laws/Ops.lean ====
section
/-! SUPPORT. What each shared operation can do, said once. -/

namespace Sys2Proof.Machine

@[simp] theorem runAll_nil {α : Type} (f : α → State → Result) (s : State) :
    runAll f [] s = .next s := rfl

theorem runAll_cons {α : Type} {f : α → State → Result} {x : α} {s t : State} (h : f x s = .next t)
    (xs : List α) : runAll f (x :: xs) s = runAll f xs t := by simp only [runAll, h]

/-- All that running a list of one thing more can answer. -/
theorem runAll_cons_next {α : Type} {f : α → State → Result} {x : α} {xs : List α} {s u : State} :
    runAll f (x :: xs) s = .next u ↔ ∃ t, f x s = .next t ∧ runAll f xs t = .next u := by
  rw [runAll]
  cases f x s <;> simp

theorem respond_eq (r : Bytes) (s : State) : respond r s = .next (s.emit (.ok r)) := rfl

theorem raise_eq (e : ErrorKind) (s : State) : raise e s = .next (s.emit (.error e)) := rfl

/-- A payload that a frame expresses passes. -/
theorem inFrame_of_lt {p : Bytes} (k : Result) (h : p.length < Config.payloadBound) :
    inFrame p k = k := if_pos h

/-- All that `inFrame` can answer. -/
theorem inFrame_next {p : Bytes} {k : Result} {t : State} :
    inFrame p k = .next t ↔ p.length < Config.payloadBound ∧ k = .next t := by
  unfold inFrame; split <;> simp_all

theorem whenReady_of_ready {s : State} (k : Elem → Elem → Result) (h : s.phase = .ready) :
    whenReady s k = k s.h s.y := by simp [whenReady, h]

theorem whenReady_of_uninit {s : State} (k : Elem → Elem → Result) (h : s.phase = .uninit) :
    whenReady s k = raise .notReady s := by simp [whenReady, h]

/-- All that `whenReady` can answer: NotReady in UNINIT, and else what it guards. -/
theorem whenReady_next {s t : State} {k : Elem → Elem → Result} :
    whenReady s k = .next t ↔
      (s.phase = .uninit ∧ t = s.emit (.error .notReady)) ∨
      (s.phase = .ready ∧ k s.h s.y = .next t) := by
  cases h : s.phase <;> simp [whenReady, h, raise, eq_comm]

theorem sized_of_eq {p : Bytes} {n : Nat} (e : ErrorKind) (s : State) (k : Result)
    (h : p.length = n) : sized p n e s k = k := if_neg (not_not.mpr h)

theorem sized_of_ne {p : Bytes} {n : Nat} (e : ErrorKind) (s : State) (k : Result)
    (h : p.length ≠ n) : sized p n e s k = raise e s := if_pos h

/-- All that `sized` can answer: its error at any other length, and else what it guards. -/
theorem sized_next {p : Bytes} {n : Nat} {e : ErrorKind} {s t : State} {k : Result} :
    sized p n e s k = .next t ↔
      (p.length ≠ n ∧ t = s.emit (.error e)) ∨ (p.length = n ∧ k = .next t) := by
  by_cases h : p.length = n <;> simp [sized, h, raise, eq_comm]

/-- All that the command port can hold. -/
theorem nextFrame_eq_frame {s u : State} {f : Bytes} :
    nextFrame s = .frame f u ↔
      (s.cmdPort = [f] ∧ u = { s with cmdPort := [] }) ∨
      (∃ rest, s.cmdPort = [] ∧ s.script = f :: rest ∧ u = { s with script := rest }) := by
  unfold nextFrame
  split
  · next h =>
    split
    · next h' => simp [h, h']
    · next g rest h' =>
      simp only [h, h', Fetch.frame.injEq]
      constructor
      · rintro ⟨rfl, rfl⟩; exact .inr ⟨rest, by simp⟩
      · rintro (⟨h1, -⟩ | ⟨r, -, h2, rfl⟩)
        · simp at h1
        · cases h2; exact ⟨rfl, rfl⟩
  · next g h =>
    simp only [h, Fetch.frame.injEq]
    constructor
    · rintro ⟨rfl, rfl⟩; exact .inl ⟨rfl, rfl⟩
    · rintro (⟨h1, rfl⟩ | ⟨r, h1, -⟩)
      · cases h1; exact ⟨rfl, rfl⟩
      · cases h1
  · next h => simp [h]

theorem nextFrame_eq_idle {s : State} :
    nextFrame s = .idle ↔ s.cmdPort = [] ∧ s.script = [] := by
  unfold nextFrame; split <;> (try split) <;> simp_all

theorem nextFrame_eq_overlap {s : State} :
    nextFrame s = .overlap ↔ 2 ≤ s.cmdPort.length := by
  unfold nextFrame; split <;> (try split) <;> simp_all

/-- All that reading a blob can answer (44_state_serialization.md rule R79). -/
theorem parseBlob_eq_some {tag b : Bytes} {h y : Elem} :
    parseBlob tag b = some (h, y) ↔ b.length = tag.length + 32 ∧ slice b 0 tag.length = tag ∧
      h = decodeElem (slice b tag.length (tag.length + 16)) ∧
      y = decodeElem (slice b (tag.length + 16) (tag.length + 32)) := by
  unfold parseBlob
  by_cases h₁ : b.length = tag.length + 32
  · by_cases h₂ : slice b 0 tag.length = tag
    · rw [if_neg (not_not.mpr h₁), if_neg (not_not.mpr h₂), Option.some.injEq, Prod.mk.injEq]
      constructor
      · rintro ⟨rfl, rfl⟩; exact ⟨h₁, h₂, rfl, rfl⟩
      · rintro ⟨-, -, rfl, rfl⟩; exact ⟨rfl, rfl⟩
    · rw [if_neg (not_not.mpr h₁), if_pos h₂]; simp [h₂]
  · rw [if_pos h₁]; simp [h₁]

theorem parseBlob_eq_none {tag b : Bytes} :
    parseBlob tag b = none ↔ b.length ≠ tag.length + 32 ∨ slice b 0 tag.length ≠ tag := by
  unfold parseBlob; split <;> (try split) <;> simp_all

theorem length_stateTag : Config.stateTag.length = Config.tagLen.val := by simp [Config.stateTag]

/-- A blob fits a frame (30_encoding.md rules R37, R38). -/
theorem stateTag_fits : Config.stateTag.length + 32 < Config.payloadBound := by
  have h := Config.tagLen.isLt
  rw [length_stateTag]
  exact Nat.add_lt_of_lt_sub h

/-- All that a step can do. -/
theorem step_next {s t : State} :
    step s = .next t ↔
      (nextFrame s = .idle ∧ t = s) ∨
      (∃ f u op p, nextFrame s = .frame f u ∧ parseFrame f = some (op, p) ∧
        execCommand op p u = .next t) := by
  unfold step
  split
  · next h => simp [h, eq_comm]
  · next h => simp [h]
  · next f u h =>
    unfold runFrame
    split
    · next h' => simp [h, h']
    · next op p h' => simp [h, h']

end Sys2Proof.Machine
end

