-- ==== Sys2Proof/Laws/Exec.lean ====
section
/-! SUPPORT. What decoding and executing a command can do, said once. -/

namespace Sys2Proof.Machine

/-- The decoder selects a command exactly by its opcode (30_encoding.md rules R41, R44). -/
theorem decodeCmd_ok {op : Byte} {p : Bytes} {i : Instr} :
    decodeCmd op p = .ok i ↔ i.opcode = op ∧ i.payload = p := by
  constructor
  · intro h
    unfold decodeCmd at h
    split at h <;> cases h <;> exact ⟨rfl, rfl⟩
  · rintro ⟨rfl, rfl⟩
    cases i <;> rfl

theorem decodeFrame_ok {f : Bytes} {i : Instr} :
    decodeFrame f = .ok i ↔ ∃ op p, parseFrame f = some (op, p) ∧ decodeCmd op p = .ok i := by
  unfold decodeFrame
  split
  · next h => simp [h]
  · next op p h => simp [h]

/-- All that a meaning can do: answer an error or a result and change nothing else, or absorb blocks
into Y (UPDATE), or begin a new accumulator lifetime (INIT, RESTORE). -/
theorem exec_next_cases {i : Instr} {s t : State} (h : exec i s = .next t) :
    (∃ e, t = s.emit (.error e)) ∨
    (changesState i = false ∧ ∃ b, t = s.emit (.ok b)) ∨
    (∃ p, i = .update p ∧ s.phase = .ready ∧
      t = (s.setY (absorb s.h s.y (blocksOf p))).emit (.ok [])) ∨
    (∃ p k y, (i = .init p ∨ i = .restore p) ∧ t = (s.load k y).emit (.ok [])) := by
  cases i with
  | init p =>
    rcases sized_next.mp (inFrame_next.mp h).2 with ⟨-, rfl⟩ | ⟨-, h⟩
    · exact .inl ⟨_, rfl⟩
    · cases h; exact .inr (.inr (.inr ⟨p, _, _, .inl rfl, rfl⟩))
  | update p =>
    rcases whenReady_next.mp (inFrame_next.mp h).2 with ⟨-, rfl⟩ | ⟨hr, h⟩
    · exact .inl ⟨_, rfl⟩
    · split at h
      · cases h; exact .inl ⟨_, rfl⟩
      · cases h; exact .inr (.inr (.inl ⟨p, rfl, hr, rfl⟩))
  | sum p =>
    rcases whenReady_next.mp (inFrame_next.mp h).2 with ⟨-, rfl⟩ | ⟨-, h⟩
    · exact .inl ⟨_, rfl⟩
    · rcases sized_next.mp h with ⟨-, rfl⟩ | ⟨-, h⟩
      · exact .inl ⟨_, rfl⟩
      · cases h; exact .inr (.inl ⟨rfl, _, rfl⟩)
  | save p =>
    rcases whenReady_next.mp (inFrame_next.mp h).2 with ⟨-, rfl⟩ | ⟨-, h⟩
    · exact .inl ⟨_, rfl⟩
    · rcases sized_next.mp h with ⟨-, rfl⟩ | ⟨-, h⟩
      · exact .inl ⟨_, rfl⟩
      · cases h; exact .inr (.inl ⟨rfl, _, rfl⟩)
  | restore p =>
    have h := (inFrame_next.mp h).2
    split at h
    · cases h; exact .inl ⟨_, rfl⟩
    · cases h; exact .inr (.inr (.inr ⟨p, _, _, .inr rfl, rfl⟩))
  | blocksize p | status p | clmul64 p | reduce p | mul p | double p =>
    rcases sized_next.mp (inFrame_next.mp h).2 with ⟨-, rfl⟩ | ⟨-, h⟩
    · exact .inl ⟨_, rfl⟩
    · cases h; exact .inr (.inl ⟨rfl, _, rfl⟩)

/-- All that a command can do, over pairs: its meaning, or IllegalOp. -/
theorem execCommand_next {op : Byte} {p : Bytes} {s t : State} :
    execCommand op p s = .next t ↔
      (∃ i, decodeCmd op p = .ok i ∧ exec i s = .next t) ∨
      (decodeCmd op p = .error (.illegalOp op) ∧ p.length < Config.payloadBound ∧
        t = s.emit (.error .illegalOp)) := by
  unfold execCommand
  cases h : decodeCmd op p with
  | ok i => simp
  | error e =>
    have he : e = .illegalOp op := by
      unfold decodeCmd at h
      split at h <;> cases h
      rfl
    subst he
    simp only [execIllegal, inFrame_next, raise, Host.Outcome.next.injEq, true_and, reduceCtorEq,
      false_and, exists_false, false_or]
    exact and_congr_right fun _ => eq_comm

/-- What a command does depends on PHASE, H and Y alone (10_state.md rule R20): in two states that agree
on them it gives the same response and the same registers, and leaves the ports as they are. -/
theorem exec_of_same_registers {i : Instr} (hi : i.WellFormed) {s t : State}
    (hp : s.phase = t.phase) (hh : s.h = t.h) (hy : s.y = t.y) :
    ∃ s' r, exec i s = .next s' ∧ s'.responses = s.responses ++ [r] ∧
      exec i t = .next { t with
        phase := s'.phase, h := s'.h, y := s'.y, responses := t.responses ++ [r] } := by
  have hi' : i.payload.length < Config.payloadBound := hi
  obtain ⟨ph, h, y, c, r, sc⟩ := s
  obtain ⟨ph', h', y', c', r', sc'⟩ := t
  simp only at hp hh hy
  subst hp hh hy
  cases i <;> cases ph <;>
    simp only [exec, execInit, execUpdate, execRestore, restoreWith, execSum, execBlocksize,
      execSave, execStatus, execClmul64, execReduce, execMul, execDouble, saveWith, inFrame,
      Instr.payload] at hi' ⊢ <;>
    simp only [hi', if_true, whenReady, sized, raise, respond, State.statusByte, State.emit,
      State.load, State.setY]
  all_goals (try split_ifs)
  all_goals (try split)
  all_goals exact ⟨_, _, rfl, rfl, rfl⟩

/-- A command over pairs is its meaning. -/
theorem execCommand_opcode (i : Instr) (s : State) :
    execCommand i.opcode i.payload s = exec i s := by
  rw [execCommand, decodeCmd_ok.mpr ⟨rfl, rfl⟩]

theorem execAll_cons {i : Instr} {s t : State} (h : exec i s = .next t) (is : List Instr) :
    execAll (i :: is) s = execAll is t := runAll_cons h is

theorem execCommands_cons {op : Byte} {p : Bytes} {s t : State}
    (h : execCommand op p s = .next t) (cs : List (Byte × Bytes)) :
    execCommands ((op, p) :: cs) s = execCommands cs t :=
  runAll_cons (f := fun c : Byte × Bytes => execCommand c.1 c.2) (x := (op, p)) h cs

/-- Running commands is running them as pairs. -/
theorem execAll_eq_execCommands (is : List Instr) (s : State) :
    execAll is s = execCommands (is.map fun i => (i.opcode, i.payload)) s := by
  unfold execAll execCommands
  induction is generalizing s with
  | nil => rfl
  | cons i is ih => simp only [List.map_cons, runAll, execCommand_opcode, ih]

/-- `exec_of_same_registers` over pairs: an illegal opcode reads no register either. -/
theorem execCommand_of_same_registers {op : Byte} {p : Bytes} (h : p.length < Config.payloadBound)
    {s t : State} (hp : s.phase = t.phase) (hh : s.h = t.h) (hy : s.y = t.y) :
    ∃ s' r, execCommand op p s = .next s' ∧ s'.responses = s.responses ++ [r] ∧
      execCommand op p t = .next { t with
        phase := s'.phase, h := s'.h, y := s'.y, responses := t.responses ++ [r] } := by
  unfold execCommand
  cases hd : decodeCmd op p with
  | ok i =>
    obtain ⟨-, rfl⟩ := decodeCmd_ok.mp hd
    exact exec_of_same_registers h hp hh hy
  | error e =>
    refine ⟨_, _, inFrame_of_lt _ h, rfl, ?_⟩
    show inFrame p _ = _
    rw [inFrame_of_lt _ h, emit_phase, emit_h, emit_y, hp, hh, hy]
    rfl

end Sys2Proof.Machine
end

