-- ==== Sys2Proof/Laws/PerInstr.lean ====
section
/-! SUPPORT. What holds of every command as syntax: the shape of its frame. -/

namespace Sys2Proof.Laws.FrameShape

/-- The frame of a command opens with its opcode, carries its payload after 5 bytes and is 5 + n bytes
long (30_encoding.md rule R37). -/
def Statement (i : Instr) : Prop :=
  (encode i).head? = some i.opcode ∧ (encode i).drop 5 = i.payload ∧
    (encode i).length = 5 + i.payload.length

theorem frameOf_shape (op : Byte) (p : Bytes) :
    (frameOf op p).head? = some op ∧ (frameOf op p).drop 5 = p ∧
      (frameOf op p).length = 5 + p.length := by
  have h := length_bytesOf (BitVec.ofNat 32 p.length)
  refine ⟨rfl, ?_, ?_⟩
  · simp [frameOf, h]
  · simp [frameOf, h]; omega

theorem init (p : Bytes) : Statement (.init p) := frameOf_shape _ _
theorem update (p : Bytes) : Statement (.update p) := frameOf_shape _ _
theorem sum (p : Bytes) : Statement (.sum p) := frameOf_shape _ _
theorem blocksize (p : Bytes) : Statement (.blocksize p) := frameOf_shape _ _
theorem save (p : Bytes) : Statement (.save p) := frameOf_shape _ _
theorem restore (p : Bytes) : Statement (.restore p) := frameOf_shape _ _
theorem status (p : Bytes) : Statement (.status p) := frameOf_shape _ _
theorem clmul64 (p : Bytes) : Statement (.clmul64 p) := frameOf_shape _ _
theorem reduce (p : Bytes) : Statement (.reduce p) := frameOf_shape _ _
theorem mul (p : Bytes) : Statement (.mul p) := frameOf_shape _ _
theorem double (p : Bytes) : Statement (.double p) := frameOf_shape _ _

end Sys2Proof.Laws.FrameShape
end

