-- ==== Sys2Proof/Laws/Poly.lean ====
section
/-! SUPPORT. The polynomial of a bit vector (00_scope.md rule R6) and congruence modulo p (rule R9). -/

namespace Sys2Proof.Laws

/-! ## The polynomial of a bit vector -/

theorem coeff_poly {n : Nat} (a : BitVec n) (i : Nat) :
    (poly a).coeff i = if a.getLsbD i then 1 else 0 := by
  unfold poly
  rw [Polynomial.finsetSum_coeff]
  by_cases hi : i < n
  · rw [Finset.sum_eq_single i]
    · split <;> simp_all
    · intro j _ hj; split <;> simp [Polynomial.coeff_X_pow, Ne.symm hj]
    · intro h; simp at h; omega
  · rw [Finset.sum_eq_zero]
    · simp [BitVec.getLsbD_of_ge _ _ (by omega : n ≤ i)]
    · intro j hj; simp at hj; split <;> simp [Polynomial.coeff_X_pow, show i ≠ j by omega]

/-- Addition of polynomials is exclusive or (rule R7). -/
theorem poly_xor {n : Nat} (a b : BitVec n) : poly (a ^^^ b) = poly a + poly b := by
  ext i
  rw [Polynomial.coeff_add, coeff_poly, coeff_poly, coeff_poly, BitVec.getLsbD_xor]
  cases a.getLsbD i <;> cases b.getLsbD i <;> simp
  decide

@[simp] theorem poly_zero {n : Nat} : poly (0 : BitVec n) = 0 := by
  ext i; simp [coeff_poly]

theorem poly_setWidth {n m : Nat} (a : BitVec n) (h : n ≤ m) : poly (a.setWidth m) = poly a := by
  ext i
  simp only [coeff_poly, BitVec.getLsbD_setWidth]
  by_cases hi : i < m
  · simp [hi]
  · simp [hi, BitVec.getLsbD_of_ge a i (by omega)]

/-- Shifting left by k, with no bit lost, multiplies by x^k. -/
theorem poly_shiftLeft {n m : Nat} (a : BitVec n) (k : Nat) (h : n + k ≤ m) :
    poly (a.setWidth m <<< k) = poly a * Polynomial.X ^ k := by
  ext i
  rw [Polynomial.coeff_mul_X_pow', coeff_poly]
  simp only [BitVec.getLsbD_shiftLeft, BitVec.getLsbD_setWidth, coeff_poly]
  by_cases hk : k ≤ i
  · rw [if_pos hk]
    by_cases hi : i < m
    · simp [hi, show i - k < m by omega, show ¬ i < k by omega]
    · simp [hi, BitVec.getLsbD_of_ge a (i - k) (by omega)]
  · rw [if_neg hk]; simp [show i < k by omega]

/-- Shifting right by 1, with no bit lost, divides by x. -/
theorem poly_shiftRight {n : Nat} (a : BitVec n) (h : a.getLsbD 0 = false) :
    Polynomial.X * poly (a >>> 1) = poly a := by
  ext i
  cases i with
  | zero => simp [coeff_poly, h]
  | succ i =>
    rw [Polynomial.coeff_X_mul, coeff_poly, coeff_poly]
    simp [BitVec.getLsbD_ushiftRight, Nat.add_comm]

theorem poly_inj {n : Nat} {a b : BitVec n} (h : poly a = poly b) : a = b := by
  apply BitVec.eq_of_getLsbD_eq
  intro i hi
  have := congrArg (Polynomial.coeff · i) h
  simp only [coeff_poly] at this
  cases h1 : a.getLsbD i <;> cases h2 : b.getLsbD i <;> simp_all

theorem poly_degree {n : Nat} (a : BitVec n) : (poly a).degree < n := by
  rw [Polynomial.degree_lt_iff_coeff_zero]
  intro m hm
  rw [coeff_poly]; simp [BitVec.getLsbD_of_ge a m hm]

/-- Joining bit vectors joins their polynomials (00_scope.md section 3). -/
theorem poly_append {m n : Nat} (x : BitVec m) (y : BitVec n) :
    poly (x ++ y) = poly x * Polynomial.X ^ n + poly y := by
  have h : x ++ y = (x.setWidth (m + n) <<< n) ^^^ y.setWidth (m + n) := by
    ext i hi
    rw [BitVec.getElem_append, BitVec.getElem_xor, BitVec.getElem_shiftLeft,
      BitVec.getElem_setWidth]
    by_cases h : i < n
    · simp [h]
    · simp [h, BitVec.getLsbD_of_ge y i (by omega)]
      rw [BitVec.getLsbD_eq_getElem (by omega)]
  rw [h, poly_xor, poly_shiftLeft _ _ (by omega), poly_setWidth _ (by omega)]

/-! ## The reducing polynomial (rule R9) -/

theorem poly_bit {n k : Nat} (hk : k < n) : poly (1#n <<< k) = Polynomial.X ^ k := by
  ext i
  rw [coeff_poly, Polynomial.coeff_X_pow]
  by_cases h : i = k
  · subst h; simp [hk]
  · simp [BitVec.getLsbD_shiftLeft, h]; omega

theorem poly_P129 : poly P129 = Polynomial.X ^ 128 + Polynomial.X ^ 127 + Polynomial.X ^ 126 +
    Polynomial.X ^ 121 + 1 := by
  have h : P129 = (1#129 <<< 128) ^^^ (1#129 <<< 127) ^^^ (1#129 <<< 126) ^^^ (1#129 <<< 121) ^^^
      (1#129 <<< 0) := by decide +kernel
  rw [h]
  simp only [poly_xor]
  rw [poly_bit (by omega), poly_bit (by omega), poly_bit (by omega), poly_bit (by omega),
    poly_bit (by omega), pow_zero]

theorem degree_P129 : (poly P129).degree = ((128 : Nat) : WithBot Nat) := by
  rw [poly_P129]; compute_degree!

/-- x is invertible modulo p: its inverse is XINV (rule R9). -/
theorem coprime_P129_X : IsCoprime (poly P129) Polynomial.X := by
  refine ⟨1, Polynomial.X ^ 127 + Polynomial.X ^ 126 + Polynomial.X ^ 125 + Polynomial.X ^ 120, ?_⟩
  rw [poly_P129]
  have h2 : (2 : Polynomial (ZMod 2)) = 0 := by
    exact_mod_cast (CharP.cast_eq_zero (Polynomial (ZMod 2)) 2)
  linear_combination
    (Polynomial.X ^ 128 + Polynomial.X ^ 127 + Polynomial.X ^ 126 + Polynomial.X ^ 121) * h2

/-! ## Congruence modulo p -/

theorem modEqP_refl (f : Polynomial (ZMod 2)) : ModEqP f f := by simp [ModEqP]

theorem modEqP_symm {f g : Polynomial (ZMod 2)} (h : ModEqP f g) : ModEqP g f := by
  unfold ModEqP at *
  rw [← dvd_neg]
  simpa using h

theorem modEqP_trans {f g k : Polynomial (ZMod 2)} (h : ModEqP f g) (h' : ModEqP g k) :
    ModEqP f k := by
  unfold ModEqP at *
  simpa using dvd_add h h'

theorem modEqP_add {f g f' g' : Polynomial (ZMod 2)} (h : ModEqP f g) (h' : ModEqP f' g') :
    ModEqP (f + f') (g + g') := by
  unfold ModEqP at *
  convert dvd_add h h' using 1
  ring

theorem modEqP_mul_right {f g : Polynomial (ZMod 2)} (k : Polynomial (ZMod 2)) (h : ModEqP f g) :
    ModEqP (f * k) (g * k) := by
  unfold ModEqP at *
  rw [← sub_mul]
  exact Dvd.dvd.mul_right h k

/-- A power of x cancels. -/
theorem modEqP_cancel {f g : Polynomial (ZMod 2)} (k : Nat)
    (h : ModEqP (f * Polynomial.X ^ k) (g * Polynomial.X ^ k)) : ModEqP f g := by
  unfold ModEqP at *
  rw [← sub_mul] at h
  exact coprime_P129_X.pow_right.dvd_of_dvd_mul_right h

/-- Congruent elements are equal: an element is its own residue (rules R10, R11). -/
theorem eq_of_modEqP {r s : Elem} (h : ModEqP (poly r) (poly s)) : r = s := by
  unfold ModEqP at h
  apply poly_inj
  have hd : (poly r - poly s).degree < (poly P129).degree := by
    rw [degree_P129, Polynomial.degree_lt_iff_coeff_zero]
    intro m hm
    rw [Polynomial.coeff_sub, coeff_poly, coeff_poly, BitVec.getLsbD_of_ge r m hm,
      BitVec.getLsbD_of_ge s m hm, sub_self]
  exact sub_eq_zero.mp (Polynomial.eq_zero_of_dvd_of_degree_lt h hd)

/-- One round of the reduction divides by x (41_reduce.md rule R54). -/
theorem poly_redcRound (t : Wide) : ModEqP (poly (redcRound t) * Polynomial.X) (poly t) := by
  unfold redcRound
  split
  · next h =>
    have h0 : (P129.setWidth 256).getLsbD 0 = true := by decide +kernel
    rw [mul_comm, poly_shiftRight _ (by rw [BitVec.getLsbD_xor, h, h0]; rfl), poly_xor,
      poly_setWidth _ (by omega)]
    unfold ModEqP
    simp
  · next h =>
    rw [mul_comm, poly_shiftRight _ (by simpa using h)]
    exact modEqP_refl _

end Sys2Proof.Laws
end

