-- ==== Sys2Proof/Tests/Slice0.lean ====
section
/-! SUPPORT. Tests of one step each on small states, with the values of 95_test_vectors.md, and for each
statement with hypotheses a witness that they can be met together. -/

namespace Sys2Proof.Tests

open Sys2Proof.Machine

/-! ## Helpers -/

/-- The n bytes of a byte string, written as the spec writes it: hex in transmission order. -/
def hx (n v : Nat) : Bytes := (List.range n).map fun k => BitVec.ofNat 8 (v / 256 ^ (n - 1 - k))

/-- The state that a result goes on with. -/
def nextOf : Result → Option State
  | .next t => some t
  | .fault _ => none
  | .refused _ => none

/-- The last response of a result. -/
def answer (r : Result) : Option Response := (nextOf r).bind fun t => t.responses.getLast?

/-- The registers of a result. -/
def registers (r : Result) : Option (Phase × Elem × Elem) :=
  (nextOf r).map fun t => (t.phase, t.h, t.y)

/-- The key of 95_test_vectors.md section 1.1, its words written as numbers. -/
def key1 : Elem := 0x7b754bba26f8311d7642925847936225#128

/-- The digest of section 1.1 after one block. -/
def digest1 : Elem := 0x776d08511501169c9850ff3745c6dace#128

def keyBytes : Bytes := hx 16 0x25629347589242761d31f826ba4b757b
def digestBytes : Bytes := hx 16 0xcedac64537ff50989c16011551086d77
def block1 : Bytes := hx 16 0x4f4f95668c83dfb6401762bb2d01a262
def block2 : Bytes := hx 16 0xd1a24ddd2721d006bbe45f20d3c9f362

/-- A state in UNINIT. -/
def cold : State := State.reset

/-- The READY state of section 2.8. -/
def warm : State := { State.reset with phase := .ready, h := key1, y := digest1 }

/-- READY with Y = 0, as INIT leaves it. -/
def fresh : State := { State.reset with phase := .ready, h := key1, y := 0 }

def exampleTag : Bytes := [0x50, 0x56, 0x53, 0x01]

def statusFrame : Bytes := [0x07, 0, 0, 0, 0]

/-! ## Well-formedness (20_memory.md rule R25) -/

theorem test_ill_formed_payload_is_refused :
    ¬ (Instr.update (List.replicate (2 ^ 32) 0)).WellFormed ∧
    exec (.update (List.replicate (2 ^ 32) 0)) warm = .refused .payloadTooLong := by
  have h : ¬ (List.replicate (2 ^ 32) (0 : Byte)).length < Config.payloadBound := by
    rw [List.length_replicate]; decide
  have key : ∀ p : Bytes, ¬ p.length < Config.payloadBound →
      exec (.update p) warm = .refused .payloadTooLong := fun p hp => if_neg hp
  exact ⟨h, key _ h⟩

theorem test_longest_payload_is_well_formed :
    (Instr.update (List.replicate (2 ^ 32 - 1) 0)).WellFormed := by
  show (List.replicate (2 ^ 32 - 1) (0 : Byte)).length < Config.payloadBound
  rw [List.length_replicate]; decide

/-! ## Decoding: words written out from 30_encoding.md rules R37 and R41 -/

theorem test_decode_accumulator_opcodes :
    decodeFrame [0b00000001, 0, 0, 0, 0] = .ok (.init []) ∧
    decodeFrame [0b00000010, 0, 0, 0, 0] = .ok (.update []) ∧
    decodeFrame [0b00000011, 0, 0, 0, 0] = .ok (.sum []) ∧
    decodeFrame [0b00000100, 0, 0, 0, 0] = .ok (.blocksize []) ∧
    decodeFrame [0b00000101, 0, 0, 0, 0] = .ok (.save []) ∧
    decodeFrame [0b00000110, 0, 0, 0, 0] = .ok (.restore []) ∧
    decodeFrame [0b00000111, 0, 0, 0, 0] = .ok (.status []) := by
  refine ⟨rfl, rfl, rfl, rfl, rfl, rfl, rfl⟩

theorem test_decode_datapath_opcodes :
    decodeFrame [0b00010000, 0, 0, 0, 0] = .ok (.clmul64 []) ∧
    decodeFrame [0b00010001, 0, 0, 0, 0] = .ok (.reduce []) ∧
    decodeFrame [0b00010010, 0, 0, 0, 0] = .ok (.mul []) ∧
    decodeFrame [0b00010011, 0, 0, 0, 0] = .ok (.double []) := by
  refine ⟨rfl, rfl, rfl, rfl⟩

/-- The INIT frame of section 2.9, and LEN read as 32-bit little-endian (256 = 00 01 00 00). -/
theorem test_decode_payload_and_length :
    parseFrame (hx 21 0x011000000025629347589242761d31f826ba4b757b) = some (0x01, keyBytes) ∧
    parseFrame ([0x02, 0x00, 0x01, 0x00, 0x00] ++ List.replicate 256 0xAA) =
      some (0x02, List.replicate 256 0xAA) ∧
    parseFrame ([0x02, 0x00, 0x01, 0x00, 0x00] ++ List.replicate 255 0xAA) = none := by
  decide +kernel

theorem test_decode_rejects :
    decodeFrame [0x07, 0, 0, 0] = .error .malformedFrame ∧
    decodeFrame [0x07, 0, 0, 0, 0, 0] = .error .malformedFrame ∧
    decodeFrame [0x07, 1, 0, 0, 0] = .error .malformedFrame ∧
    decodeFrame [0x00, 0, 0, 0, 0] = .error (.illegalOp 0x00) ∧
    decodeFrame [0x08, 0, 0, 0, 0] = .error (.illegalOp 0x08) ∧
    decodeFrame [0x0F, 0, 0, 0, 0] = .error (.illegalOp 0x0F) ∧
    decodeFrame [0x14, 0, 0, 0, 0] = .error (.illegalOp 0x14) ∧
    decodeFrame [0xFF, 1, 0, 0, 0, 9] = .error (.illegalOp 0xFF) := by
  refine ⟨rfl, rfl, rfl, rfl, rfl, rfl, rfl, rfl⟩

theorem test_decode_table_words :
    decodeTableWord 8 0x01 = some (.init []) ∧ decodeTableWord 40 0x13 = some (.double []) ∧
    decodeTableWord 40 0x0000000110 = some (.clmul64 [0]) ∧
    decodeTableWord 48 0xAB0000000103 = some (.sum [0xAB]) ∧
    decodeTableWord 24 0x010010 = some (.clmul64 (List.replicate 256 0)) ∧
    decodeTableWord 8 0x14 = none ∧ decodeTableWord 8 0x00 = none := by
  decide +kernel

/-! ## The step -/

/-- `STATUS -> OK 00` straight after reset (43_accumulator.md rule R74), as step's next command. -/
theorem test_step_runs_the_fetched_word :
    step (State.reset.withFetchWord 8 0x07) =
      .next { State.reset with responses := [.ok [0x00]] } := rfl

/-- The INIT example of rule R70, as step's next command. -/
theorem test_step_init_word :
    registers (step (State.reset.withFetchWord 168 0x7b754bba26f8311d76429258479362250000001001)) =
      some (.ready, key1, 0) := by decide +kernel

theorem test_step_stops :
    step { cold with cmdPort := [statusFrame, statusFrame] } = .refused .overlappingCommands ∧
    step { cold with cmdPort := [[0x07]] } = .refused .malformedFrame ∧
    step cold = .next cold := ⟨rfl, rfl, rfl⟩

theorem test_reset_abandons_the_command :
    ({ warm with cmdPort := [statusFrame] } : State).applyReset.cmdPort = [] ∧
    warm.applyReset.phase = .uninit := ⟨rfl, rfl⟩

/-! ## The commands (95_test_vectors.md sections 1 and 2) -/

theorem test_init :
    registers (exec (.init keyBytes) warm) = some (.ready, key1, 0) ∧
    answer (exec (.init keyBytes) warm) = some (.ok []) := by decide +kernel

theorem test_init_key_sizes :
    nextOf (exec (.init (hx 15 0x25629347589242761d31f826ba4b75)) warm) =
      some { warm with responses := [.error .keySize] } ∧
    nextOf (exec (.init (hx 17 0x25629347589242761d31f826ba4b757b00)) cold) =
      some { cold with responses := [.error .keySize] } ∧
    nextOf (exec (.init []) cold) = some { cold with responses := [.error .keySize] } := by
  decide +kernel

/-- Sections 1.1 and 1.2: two blocks in one command. -/
theorem test_update_two_blocks :
    registers (exec (.update (block1 ++ block2)) fresh) =
      some (.ready, key1, le 128 (hx 16 0xf7a3b47b846119fae5b7866cf5e5b77e)) := by decide +kernel

/-- Section 2.8: 24 bytes, the first block not absorbed; and NotReady before BlockSize. -/
theorem test_update_errors :
    nextOf (exec (.update (block1 ++ hx 8 0xd1a24ddd2721d006)) warm) =
      some { warm with responses := [.error .blockSize] } ∧
    nextOf (exec (.update []) warm) = some { warm with responses := [.error .blockSize] } ∧
    nextOf (exec (.update (block1.take 15)) cold) =
      some { cold with responses := [.error .notReady] } := by decide +kernel

theorem test_sum :
    nextOf (exec (.sum []) warm) = some { warm with responses := [.ok digestBytes] } := by
  decide +kernel

theorem test_sum_errors :
    answer (exec (.sum [0x00]) warm) = some (.error .operandSize) ∧
    answer (exec (.sum [0x00]) cold) = some (.error .notReady) := by decide +kernel

theorem test_blocksize :
    answer (exec (.blocksize []) cold) = some (.ok [0x10]) ∧
    answer (exec (.blocksize [0x00]) warm) = some (.error .operandSize) := by decide +kernel

theorem test_status :
    answer (exec (.status []) cold) = some (.ok [0x00]) ∧
    answer (exec (.status []) warm) = some (.ok [0x01]) ∧
    answer (exec (.status [0x00]) warm) = some (.error .operandSize) := by decide +kernel

/-- Section 2.7, under the example tag. -/
theorem test_save :
    nextOf (saveWith exampleTag [] warm) = some { warm with responses := [.ok (hx 36
      0x5056530125629347589242761d31f826ba4b757bcedac64537ff50989c16011551086d77)] } := by
  decide +kernel

theorem test_save_errors :
    answer (exec (.save []) cold) = some (.error .notReady) ∧
    answer (exec (.save [0x00]) warm) = some (.error .operandSize) := by decide +kernel

/-- Section 2.7, under the example tag: each row of its table. -/
theorem test_restore :
    registers (restoreWith exampleTag (hx 36
      0x5056530125629347589242761d31f826ba4b757bcedac64537ff50989c16011551086d77) cold) =
      some (.ready, key1, digest1) ∧
    registers (restoreWith exampleTag (exampleTag ++ List.replicate 32 0xFF) warm) = some (.ready, -1, -1) := by decide +kernel

theorem test_restore_errors :
    (∀ p ∈ [hx 35 0x5056530125629347589242761d31f826ba4b757bcedac64537ff50989c16011551086d,
      hx 37 0x5056530125629347589242761d31f826ba4b757bcedac64537ff50989c16011551086d7700, [],
      hx 36 0x5056530225629347589242761d31f826ba4b757bcedac64537ff50989c16011551086d77,
      hx 36 0x5156530125629347589242761d31f826ba4b757bcedac64537ff50989c16011551086d77,
      hx 32 0x25629347589242761d31f826ba4b757bcedac64537ff50989c16011551086d77],
      nextOf (restoreWith exampleTag p warm) =
        some { warm with responses := [.error .stateFormat] }) := by decide +kernel

/-- Section 2.1: the word boundary, and a full product with its operands swapped. -/
theorem test_clmul64 :
    answer (exec (.clmul64 (hx 16 0x02000000000000000000000000000080)) cold) =
      some (.ok (hx 16 0x00000000000000000100000000000000)) ∧
    answer (exec (.clmul64 (hx 16 0xf0debc9a7856341221436587a9cbed0f)) warm) =
      some (.ok (hx 16 0xf010c8289878a040b0508868d838e000)) ∧
    answer (exec (.clmul64 (hx 16 0x21436587a9cbed0ff0debc9a78563412)) warm) =
      some (.ok (hx 16 0xf010c8289878a040b0508868d838e000)) := by decide +kernel

/-- Section 2.2: x^(-128), all ones, and a value with all four words set. -/
theorem test_reduce :
    answer (exec (.reduce (hx 32 (0x01 * 256 ^ 31))) cold) =
      some (.ok (hx 16 0x01000000000000000000000000000492)) ∧
    answer (exec (.reduce (hx 32 (256 ^ 32 - 1))) cold) =
      some (.ok (hx 16 0xffffffffffffffffffffffffffff038e)) ∧
    answer (exec (.reduce (hx 32
      0xf0e1d2c3b4a5968778695a4b3c2d1e0f1032547698badcfeefcdab8967452301)) warm) =
      some (.ok (hx 16 0xa7be1c8dd0c96beaa7be1c8dd0c9aba3)) := by decide +kernel

/-- Section 2.3, rows 2 and 4: not the plain residue. -/
theorem test_mul :
    answer (exec (.mul (hx 32
      0x0100000000000000000000000000000001000000000000000000000000000000)) cold) =
      some (.ok (hx 16 0x01000000000000000000000000000492)) ∧
    answer (exec (.mul (hx 32
      0x66e94bd4ef8a2c3b884cfa59ca342b2eff000000000000000000000000000000)) warm) =
      some (.ok (hx 16 0xebe563401e7e91ea3ad6426b8140c394)) := by decide +kernel

/-- Section 2.4: the wrap, no wrap, and the source's vector. -/
theorem test_double :
    answer (exec (.double (hx 16 0x00000000000000000000000000000080)) cold) =
      some (.ok (hx 16 0x010000000000000000000000000000c2)) ∧
    answer (exec (.double (hx 16 0xffffffffffffffffffffffffffffff7f)) cold) =
      some (.ok (hx 16 0xfeffffffffffffffffffffffffffffff)) ∧
    answer (exec (.double (hx 16 0x9c98c04df9387ded828175a92ba652d8)) warm) =
      some (.ok (hx 16 0x3931819bf271fada0503eb52574ca572)) := by decide +kernel

/-- Section 2.8: the datapath commands at wrong lengths. -/
theorem test_operand_sizes :
    answer (exec (.clmul64 (block1 ++ [0x00])) warm) = some (.error .operandSize) ∧
    answer (exec (.double (block1.take 15)) warm) = some (.error .operandSize) ∧
    answer (exec (.reduce (block1 ++ block2.take 15)) warm) = some (.error .operandSize) ∧
    answer (exec (.mul (block1 ++ block2 ++ [0x00])) cold) = some (.error .operandSize) := by
  decide +kernel

theorem test_illegal_opcode :
    nextOf (execCommand 0x00 [] warm) = some { warm with responses := [.error .illegalOp] } ∧
    nextOf (execCommand 0x14 keyBytes cold) =
      some { cold with responses := [.error .illegalOp] } := by decide +kernel

/-- Section 2.9: response frames. -/
theorem test_response_frames :
    (Response.ok [0x00]).frame = [0x00, 0x01, 0, 0, 0, 0x00] ∧
    (Response.error .notReady).frame = [0x04, 0, 0, 0, 0] ∧
    (Response.ok (hx 16 0xf7a3b47b846119fae5b7866cf5e5b77e)).frame =
      hx 21 0x0010000000f7a3b47b846119fae5b7866cf5e5b77e := by
  decide +kernel

/-- The key of section 1.1 in words (20_memory.md rule R27). -/
theorem test_serializer :
    hiWord (decodeElem keyBytes) = 0x7b754bba26f8311d ∧ loWord (decodeElem keyBytes) =
      0x7642925847936225 ∧ encodeElem key1 = keyBytes := by decide +kernel

/-! ## Witnesses: the hypotheses of each statement, met together, each clause at a boundary -/

theorem witness_FrameFormatIsABijection :
    ([] : Bytes).length < 2 ^ 32 ∧ (List.replicate 256 (0xAA : Byte)).length < 2 ^ 32 ∧
    parseFrame [0x07, 0, 0, 0, 0] = some (0x07, []) ∧
    parseFrame [0x03, 1, 0, 0, 0, 0] = some (0x03, [0]) ∧
    parseFrame [0x07, 0, 0, 0] = none := by decide +kernel

theorem witness_DecodeOfEncodeIsIdentity :
    (Instr.status []).WellFormed ∧ (Instr.init keyBytes).WellFormed ∧
    (Instr.update (List.replicate (2 ^ 32 - 1) 0)).WellFormed :=
  ⟨by decide, by decide, test_longest_payload_is_well_formed⟩

theorem witness_EncodeOfDecodeIsIdentity :
    decodeFrame statusFrame = .ok (.status []) := rfl

theorem witness_IllegalOpcodeRaisesIllegalOp :
    ∀ op ∈ ([0x00, 0x08, 0x0F, 0x14, 0xFF] : List Byte),
      (op = 0x00 ∨ (0x08 ≤ op.toNat ∧ op.toNat ≤ 0x0F) ∨ 0x14 ≤ op.toNat) ∧
        ([] : Bytes).length < 2 ^ 32 := by decide

/-- The neighbours of the illegal ranges are legal opcodes. -/
theorem witness_OpcodeMapIsExact :
    ∀ op ∈ ([0x01, 0x07, 0x10, 0x13] : List Byte),
      ¬ (op = 0x00 ∨ (0x08 ≤ op.toNat ∧ op.toNat ≤ 0x0F) ∨ 0x14 ≤ op.toNat) := by decide

theorem witness_ResponseFrameFormat :
    (Response.ok [0x10]).result.length < 2 ^ 32 ∧
    (Response.error .keySize).result.length < 2 ^ 32 ∧ (Response.error .keySize).status ≠ 0 := by
  decide

/-- Both routes, a frame that decodes and a frame of an illegal opcode. -/
theorem witness_StepRunsTheDecodedCommand :
    ({ warm with cmdPort := [statusFrame] } : State).cmdPort = [statusFrame] ∧
    ({ warm with script := [statusFrame] } : State).cmdPort = [] ∧
    ({ warm with script := [statusFrame] } : State).script = statusFrame :: [] ∧
    parseFrame statusFrame = some (0x07, []) ∧ decodeFrame statusFrame = .ok (.status []) ∧
    parseFrame [0x14, 0, 0, 0, 0] = some (0x14, []) ∧
    decodeFrame [0x14, 0, 0, 0, 0] = .error (.illegalOp 0x14) :=
  ⟨rfl, rfl, rfl, rfl, rfl, rfl, rfl⟩

/-- An illegal opcode from the host's list: IllegalOp, and the registers as they were (rule R42). -/
theorem test_step_illegal_opcode :
    step { warm with script := [[0x00, 0, 0, 0, 0], statusFrame] } =
      .next { warm with script := [statusFrame], responses := [.error .illegalOp] } := rfl

/-- Each of the three ways to step, and a state that does not. -/
theorem witness_StepAnswersExactlyWithinTheContract :
    (cold.cmdPort = [] ∧ cold.script = []) ∧ isFrame statusFrame = true ∧
    (∃ t, step { cold with cmdPort := [statusFrame] } = .next t) ∧
    (∃ t, step { cold with script := [statusFrame] } = .next t) ∧
    isFrame [0x07] = false := ⟨⟨rfl, rfl⟩, rfl, ⟨_, rfl⟩, ⟨_, rfl⟩, rfl⟩

theorem witness_OverlappingCommandsAreRefused :
    ({ warm with cmdPort := [statusFrame] } : State).cmdPort = [statusFrame] := rfl

theorem witness_EveryCommandGetsOneResponse :
    ([] : Bytes).length < 2 ^ 32 ∧ keyBytes.length < 2 ^ 32 := by decide

theorem witness_ExecAnswersExactlyWellFormedCommands :
    (Instr.sum []).WellFormed ∧ ¬ (Instr.update (List.replicate (2 ^ 32) 0)).WellFormed :=
  ⟨by decide, test_ill_formed_payload_is_refused.1⟩

theorem witness_RunOfScriptExecutesInOrder :
    (∀ c ∈ [((0x01 : Byte), keyBytes), (0x14, [0]), (0x02, block1), (0x03, [])],
      c.2.length < 2 ^ 32) ∧
    cold.cmdPort = [] ∧ cold.script = [] := by decide

/-- INIT: both lengths next to 16, and 16. -/
theorem witness_InitStartsAnAccumulator :
    (keyBytes.take 15).length ≠ 16 ∧ (keyBytes ++ [0]).length ≠ 16 ∧ keyBytes.length = 16 ∧
    (keyBytes ++ [0]).length < 2 ^ 32 := by decide

/-- UPDATE: UNINIT; READY with 0, 15, 17 bytes; READY with k = 1 and k = 2 blocks. -/
theorem witness_UpdateAbsorbsTheBlocksInOrder :
    cold.phase = .uninit ∧ warm.phase = .ready ∧ ([] : Bytes).length = 0 ∧
    (block1.take 15).length % 16 ≠ 0 ∧ (block1 ++ [0]).length % 16 ≠ 0 ∧
    block1.length = 16 * 1 ∧ (block1 ++ block2).length = 16 * 2 ∧ 1 ≤ 1 ∧
    (block1 ++ block2).length < 2 ^ 32 := by decide

theorem witness_SumReadsTheDigest :
    cold.phase = .uninit ∧ warm.phase = .ready ∧ ([0x00] : Bytes).length ≠ 0 ∧
    ([] : Bytes).length = 0 ∧ ([0x00] : Bytes).length < 2 ^ 32 := by decide

theorem witness_BlocksizeReturnsSixteen :
    ([0x00] : Bytes).length ≠ 0 ∧ ([] : Bytes).length = 0 ∧ ([0x00] : Bytes).length < 2 ^ 32 := by
  decide

theorem witness_StatusReturnsThePhase :
    ([0x00] : Bytes).length ≠ 0 ∧ ([] : Bytes).length = 0 ∧ warm.phase = .ready ∧
    cold.phase = .uninit ∧ ([0x00] : Bytes).length < 2 ^ 32 := by decide

theorem witness_SaveExportsTheState :
    cold.phase = .uninit ∧ warm.phase = .ready ∧ ([0x00] : Bytes).length ≠ 0 ∧
    ([] : Bytes).length = 0 ∧ ([0x00] : Bytes).length < 2 ^ 32 := by decide

/-- RESTORE: no byte; a blob one byte short and one byte long; a whole blob. -/
theorem witness_RestoreImportsAState :
    ([] : Bytes).length ≠ Config.stateTag.length + 32 ∧ ([] : Bytes).length < 2 ^ 32 ∧
    (Config.stateTag ++ List.replicate 31 (0 : Byte)).length ≠ Config.stateTag.length + 32 ∧
    (Config.stateTag ++ List.replicate 33 (0 : Byte)).length ≠ Config.stateTag.length + 32 ∧
    keyBytes.length = 16 ∧ digestBytes.length = 16 := by
  refine ⟨?_, by decide, ?_, ?_, by decide, by decide⟩
  · rw [List.length_nil]; omega
  · simp
  · simp

/-- The tag clause is not empty for a tag of one byte or more. -/
theorem witness_wrong_tag :
    slice (hx 36 0x5056530225629347589242761d31f826ba4b757bcedac64537ff50989c16011551086d77) 0 4 ≠
      exampleTag ∧
    (hx 36 0x5056530225629347589242761d31f826ba4b757bcedac64537ff50989c16011551086d77).length =
      exampleTag.length + 32 := by decide +kernel

theorem witness_datapath_lengths :
    (block1.take 15).length ≠ 16 ∧ (block1 ++ [0]).length ≠ 16 ∧ block1.length = 16 ∧
    (block1 ++ block2.take 15).length ≠ 32 ∧ (block1 ++ block2 ++ [0]).length ≠ 32 ∧
    (block1 ++ block2).length = 32 ∧ (block1 ++ block2 ++ [0]).length < 2 ^ 32 := by decide

theorem witness_Clmul64ReturnsTheProduct :
    (block1.take 15).length ≠ 16 ∧ (block1 ++ [0]).length ≠ 16 ∧ block1.length = 16 := by decide

theorem witness_ReduceReturnsTheReduction :
    (block1 ++ block2.take 15).length ≠ 32 ∧ (block1 ++ block2).length = 32 := by decide

theorem witness_MulReturnsTheFieldProduct :
    (block1 ++ block2 ++ [0]).length ≠ 32 ∧ (block1 ++ block2).length = 32 := by decide

theorem witness_DoubleReturnsTheDouble :
    (block1.take 15).length ≠ 16 ∧ (block1 ++ [0]).length ≠ 16 ∧ block1.length = 16 := by decide

theorem witness_XorDoubleDoublesTheSum : block1.length = 16 ∧ block2.length = 16 := by decide

/-- A command of each kind that goes on: a read, one that writes, one that errs. -/
theorem witness_OnlyTheListedRegistersAreWritten :
    (∃ t, exec (.sum []) warm = .next t) ∧ (∃ t, exec (.update block1) warm = .next t) ∧
    (∃ t, exec (.init []) warm = .next t) ∧
    (∀ p, Instr.update block1 ≠ .init p ∧ Instr.update block1 ≠ .restore p) ∧
    (∀ p, Instr.sum [] ≠ .init p ∧ Instr.sum [] ≠ .restore p ∧ Instr.sum [] ≠ .update p) :=
  ⟨⟨_, rfl⟩, ⟨_, rfl⟩, ⟨_, rfl⟩, by simp, by simp⟩

theorem witness_ResultLengthsAndRepeatableReads :
    (exec (.blocksize []) warm =
      .next { warm with responses := warm.responses ++ [.ok [0x10]] }) ∧
    (exec (.blocksize [0]) warm =
      .next { warm with responses := warm.responses ++ [.error .operandSize] }) ∧
    changesState (.blocksize []) = false := ⟨rfl, rfl, rfl⟩

/-- Each error is raised by some command, so that each clause has both directions. -/
theorem witness_EachErrorHasItsCausesAndCode :
    answer (execCommand 0x01 [] warm) = some (.error .keySize) ∧
    answer (execCommand 0x02 [] warm) = some (.error .blockSize) ∧
    answer (execCommand 0x02 [] cold) = some (.error .notReady) ∧
    answer (execCommand 0x03 [0] warm) = some (.error .operandSize) ∧
    answer (execCommand 0x13 [] warm) = some (.error .operandSize) ∧
    answer (execCommand 0x00 [] warm) = some (.error .illegalOp) ∧
    answer (execCommand 0x03 [] warm) = some (.ok digestBytes) := by decide +kernel

/-- An empty blob is never well formed, whatever STATE_TAG is. -/
theorem witness_state_format_error :
    execCommand 0x06 [] warm = .next (warm.emit (.error .stateFormat)) := by
  have h : parseBlob Config.stateTag [] = none :=
    parseBlob_eq_none.mpr (.inl witness_RestoreImportsAState.1)
  have key : ∀ o : Option (Elem × Elem), o = none →
      (match o with
        | none => raise .stateFormat warm
        | some (h, y) => respond [] (warm.load h y)) =
        .next (warm.emit (.error .stateFormat)) := fun o ho => by subst ho; rfl
  exact key _ h

/-- Both outcomes of the priority rule: two errors apply and the first is reported; none applies. -/
theorem witness_FirstApplicableErrorIsReported :
    firstError 0x02 (block1.take 15) .uninit = some .notReady ∧
    firstError 0x02 (block1.take 15) .ready = some .blockSize ∧
    firstError 0x14 [0] .uninit = some .illegalOp ∧
    firstError 0x03 [] .ready = none ∧ (block1.take 15).length < 2 ^ 32 := by decide +kernel

theorem witness_ErrorsLeaveTheState :
    execCommand 0x02 [] cold = .next (cold.emit (.error .notReady)) ∧
    (cold.emit (.error .notReady)).responses = cold.responses ++ [.error .notReady] := ⟨rfl, rfl⟩

/-- Two SUM commands whose payloads and registers differ and whose lengths and phases agree. -/
theorem witness_ErrorsDependOnPublicDataOnly :
    ([0] : Bytes).length = ([1] : Bytes).length ∧ (0x03 : Byte) ≠ 0x06 ∧ warm.phase = fresh.phase ∧
    (∃ s', execCommand 0x03 [0] warm = .next s') ∧ (∃ t', execCommand 0x03 [1] fresh = .next t') :=
  ⟨rfl, by decide, rfl, ⟨_, rfl⟩, ⟨_, rfl⟩⟩

/-- A reset from READY, and a step from UNINIT to READY. -/
theorem witness_OnlyResetClearsThePhase :
    (∃ t, applyEvent .reset warm = .next t ∧ warm.phase = .ready ∧ t.phase = .uninit) ∧
    (∃ t, applyEvent .run { cold with cmdPort := [encode (.init keyBytes)] } = .next t ∧
      t.phase = .ready) := ⟨⟨_, rfl, rfl, rfl⟩, ⟨_, rfl, rfl⟩⟩

theorem witness_ResetAbandonsTheCommand :
    ∃ t : State, t.phase = .uninit ∧ t.cmdPort = [] ∧ t.responses = warm.responses ∧
      t.script = warm.script ∧ t.h ≠ warm.applyReset.h :=
  ⟨{ cold with h := key1 }, rfl, rfl, rfl, rfl, by decide⟩

theorem witness_ResetStateIsUninitialised :
    (Instr.sum []).WellFormed ∧ needsReady (.sum []) = true ∧ needsReady (.update block1) = true ∧
    needsReady (.save []) = true ∧
    (∀ i ∈ [Instr.init keyBytes, .blocksize [], .status [], .clmul64 block1, .double block1,
      .reduce (block1 ++ block2), .mul (block1 ++ block2)],
      i.WellFormed ∧ needsReady i = false ∧ acceptsLength i = true ∧ tagMatches i = true) := by
  decide

/-- The RESTORE clause, for every STATE_TAG. -/
theorem witness_restore_after_reset :
    acceptsLength (.restore (Config.stateTag ++ List.replicate 32 0)) = true ∧
    tagMatches (.restore (Config.stateTag ++ List.replicate 32 0)) = true ∧
    (Instr.restore (Config.stateTag ++ List.replicate 32 0)).WellFormed := by
  have h := stateTag_fits
  refine ⟨?_, ?_, ?_⟩
  · simp [acceptsLength, length_stateTag]
  · simp [tagMatches, ← length_stateTag]
  · simpa [Instr.WellFormed, Instr.payload] using h

/-- Two states that look alike and hold different registers, with a step to take. -/
theorem witness_UninitialisedRegistersAreUnobservable :
    SameView { cold with cmdPort := [statusFrame] } { cold with cmdPort := [statusFrame], h := key1 } ∧
    (∃ s', step { cold with cmdPort := [statusFrame] } = .next s') ∧
    SameView { cold with cmdPort := [[]] } { cold with cmdPort := [[]], y := key1 } ∧
    step { cold with cmdPort := [[]] } = .refused .malformedFrame :=
  ⟨⟨rfl, rfl, rfl, rfl, by decide⟩, ⟨_, rfl⟩, ⟨rfl, rfl, rfl, rfl, by decide⟩, rfl⟩

theorem witness_OnlySaveReturnsTheKey :
    (∃ s', exec (.sum []) warm = .next s') ∧ (∀ p, Instr.sum [] ≠ .save p) ∧
    (∃ s', exec (.update block1) warm = .next s') ∧
    (∀ p, Instr.update block1 ≠ .save p ∧ Instr.update block1 ≠ .sum p) :=
  ⟨⟨_, rfl⟩, by simp, ⟨_, rfl⟩, by simp⟩

theorem safe_with_a_command : Safe { warm with cmdPort := [statusFrame] } :=
  ⟨⟨by decide, by decide, by decide⟩, fun _ h => absurd h (by simp [warm, State.reset])⟩

theorem witness_StepKeepsSafe :
    Safe { warm with cmdPort := [statusFrame] } ∧
    ∃ t, step { warm with cmdPort := [statusFrame] } = .next t := ⟨safe_with_a_command, ⟨_, rfl⟩⟩

theorem witness_SafeStatesAlwaysStep :
    Safe { warm with cmdPort := [statusFrame] } ∧
    ({ warm with cmdPort := [statusFrame] } : State).cmdPort ≠ [] := ⟨safe_with_a_command, by decide⟩

theorem witness_ResetIsSafe :
    ∀ f ∈ [statusFrame, encode (.init keyBytes)], isFrame f = true := by decide

theorem witness_ClmulIsThePolynomialProduct : 1 ≤ 64 ∧ 63 < 64 + 64 ∧ 127 < 64 + 64 := by decide

/-- Shifts by 1 and by 63, the first and the last of the law, and the highest bit of a square. -/
theorem witness_CtmulLaws :
    ctmul 0xdeadbeefcafebabe (1#64 <<< 1) = (0x1, 0xbd5b7ddf95fd757c) ∧
    ctmul 0x8000000000000000 (1#64 <<< 63) = (0x4000000000000000, 0) ∧
    1 ≤ 63 ∧ 63 ≤ 63 ∧ 63 < 64 := by decide +kernel

/-- A vector of 128 bits is its own residue. -/
theorem witness_ModPIsTheResidue : ModEqP (poly key1) (poly (key1.setWidth 128)) := by
  rw [BitVec.setWidth_eq]; exact Laws.modEqP_refl _

/-- A value in the high half and the element it stands for (41_reduce.md rule R55 f). -/
theorem witness_RedcDividesByX128 :
    ModEqP (poly key1 * Polynomial.X ^ 128) (poly (key1.setWidth 256 <<< 128 : Wide)) := by
  rw [Laws.poly_shiftLeft key1 128 (by omega)]; exact Laws.modEqP_refl _

theorem witness_AllMultipliersAgree :
    clmulThree key1 digest1 ∈ [clmul key1 digest1, clmulFour key1 digest1, clmulThree key1 digest1] :=
  by simp

/-- Section 1.4: elements 1, 127 and 128 of the doubling sequence. -/
theorem witness_DoublingSequenceAndInverse :
    dblTimes 1 1 = 0x2#128 ∧ dblTimes 127 1 = 0x80000000000000000000000000000000#128 ∧
    dblTimes 128 1 = 0xC2000000000000000000000000000001#128 ∧ 127 ≤ 127 := by decide +kernel

theorem witness_ByteOrderIsLittleEndian : keyBytes.length = 16 ∧ 15 < 16 ∧ 7 < 8 := by decide

theorem witness_SerializerIsABijection : keyBytes.length = 16 ∧ block1.length = 16 := by decide

/-- One chunk of one block; a chunk of two blocks and one of one. -/
theorem witness_ChunkingDoesNotMatter :
    warm.phase = .ready ∧ [block1] ≠ [] ∧
    (∀ c ∈ [block1 ++ block2, block1], 1 ≤ c.length ∧ c.length % 16 = 0) ∧
    [block1 ++ block2, block1].flatten.length < 2 ^ 32 := by decide

/-- No block and two blocks. -/
theorem witness_PolyvalComputesTheClosedForm :
    keyBytes.length = 16 ∧ (∀ x ∈ ([] : List Bytes), x.length = 16) ∧
    (∀ x ∈ [block1, block2], x.length = 16) ∧ 16 * [block1, block2].length < 2 ^ 32 := by decide

theorem witness_RestoredStateBehavesAsSaved :
    warm.phase = .ready ∧
    ∀ c ∈ [((0x02 : Byte), block2), (0x00, [0]), (0x03, [])], c.2.length < 2 ^ 32 := by decide

theorem witness_InstancesAreIndependent : (0 : Fin 2) ≠ 1 := by decide

end Sys2Proof.Tests
end

section
/-! Systems of several instances: what presenting a command to one instance and a step of one instance
do to that instance and to the others (10_state.md rule R24). -/

namespace Sys2Proof.Machine

variable {k : Nat} {i j : Fin k} {sys sys' : System k}

theorem System.getElem_present_self (f : Bytes) :
    (System.present i f sys)[i] = sys[i].present f :=
  Vector.getElem_set_self i.isLt

theorem System.getElem_present_of_ne (hij : i ≠ j) (f : Bytes) :
    (System.present i f sys)[j] = sys[j] :=
  Vector.getElem_set_ne i.isLt j.isLt (Fin.val_ne_of_ne hij)

/-- A system is another one with instance i replaced exactly when it has the new state at i and agrees
with the other system everywhere else. -/
theorem System.set_eq_iff {t : State} :
    sys.set i t = sys' ↔ t = sys'[i] ∧ ∀ l : Fin k, l ≠ i → sys'[l] = sys[l] := by
  constructor
  · rintro rfl
    exact ⟨(Vector.getElem_set_self i.isLt).symm, fun l hl =>
      Vector.getElem_set_ne i.isLt l.isLt (Fin.val_ne_of_ne hl.symm)⟩
  · rintro ⟨hself, hother⟩
    refine Vector.ext fun n hn => ?_
    rw [Vector.getElem_set]
    split
    case isTrue h => subst h; exact hself
    case isFalse h => exact (hother ⟨n, hn⟩ fun hni => h (congrArg Fin.val hni).symm).symm

/-- A step of instance i answers exactly when the step of its own state does; the
system's next state then has that state at i in the old one's place. -/
theorem System.step_eq_next_iff :
    System.step i sys = .next sys' ↔ ∃ t, Machine.step sys[i] = .next t ∧ sys.set i t = sys' := by
  unfold System.step
  cases Machine.step sys[i] <;> simp

/-- Settles O59: the system's operations replace instance i's state alone, with the state that the
instance's own operation gives. -/
theorem instancesAreIndependent : Obligations.InstancesAreIndependent := by
  unfold Obligations.InstancesAreIndependent
  intro k i j sys sys' f hij
  refine ⟨System.getElem_present_of_ne hij f, System.getElem_present_self f, ?_⟩
  rw [System.step_eq_next_iff]
  simp only [System.set_eq_iff]
  constructor
  · rintro ⟨t, hstep, rfl, hother⟩
    exact ⟨hstep, hother⟩
  · rintro ⟨hstep, hother⟩
    exact ⟨_, hstep, rfl, hother⟩

end Sys2Proof.Machine
end

section
/-! Every command is answered, and the byte order of field elements (20_memory.md rules R25, R27). -/

namespace Sys2Proof.Laws

/-- The list accessor of the statements and the one of the byte laws read the same byte. -/
theorem getElem!_eq_getD (b : Bytes) (k : Nat) : b[k]! = b.getD k 0 := by
  rw [List.getElem!_eq_getElem?_getD, List.getD_eq_getElem?_getD]; rfl

/-- The sum that 00_scope.md section 3 defines `le_n` by. -/
theorem leNat_eq_sum (b : Bytes) :
    leNat b = ∑ k ∈ Finset.range b.length, (b.getD k 0).toNat * 2 ^ (8 * k) := by
  induction b with
  | nil => rfl
  | cons x xs ih =>
    rw [leNat, ih, List.length_cons, Finset.sum_range_succ', Finset.mul_sum, add_comm]
    congr 1
    · refine Finset.sum_congr rfl fun k _ => ?_
      rw [List.getD_cons_succ, mul_add, pow_add]
      ring
    · simp

/-- Bytes i to i + m of a byte string are bits 8i to 8(i + m) of its value. -/
theorem extractLsb'_le {n i m : Nat} (b : Bytes) (h : 8 * (i + m) ≤ n) :
    (le n b).extractLsb' (8 * i) (8 * m) = le (8 * m) (slice b i (i + m)) := by
  apply BitVec.eq_of_getLsbD_eq
  intro j hj
  have hdiv : (8 * i + j) / 8 = i + j / 8 := by omega
  have hmod : (8 * i + j) % 8 = j % 8 := by omega
  rw [BitVec.getLsbD_extractLsb', getLsbD_le, getLsbD_le, getD_slice, hdiv, hmod,
    if_pos (by omega)]
  simp [hj, show 8 * i + j < n by omega]

theorem toNat_decodeElem {b : Bytes} (hb : b.length = 16) :
    (decodeElem b).toNat = ∑ k ∈ Finset.range 16, b[k]!.toNat * 2 ^ (8 * k) := by
  simp only [decodeElem, toNat_le b (n := 128) (by omega), leNat_eq_sum, hb, getElem!_eq_getD]

theorem getLsbD_decodeElem (b : Bytes) {k j : Nat} (hk : k < 16) (hj : j < 8) :
    (decodeElem b).getLsbD (8 * k + j) = b[k]!.getLsbD j := by
  have hdiv : (8 * k + j) / 8 = k := by omega
  have hmod : (8 * k + j) % 8 = j := by omega
  rw [decodeElem, getLsbD_le, hdiv, hmod, getElem!_eq_getD]
  simp [show 8 * k + j < 128 by omega]

theorem loWord_decodeElem (b : Bytes) : loWord (decodeElem b) = le 64 (slice b 0 8) :=
  extractLsb'_le (n := 128) (i := 0) (m := 8) b (by decide)

theorem hiWord_decodeElem (b : Bytes) : hiWord (decodeElem b) = le 64 (slice b 8 16) :=
  extractLsb'_le (n := 128) (i := 8) (m := 8) b (by decide)

theorem length_encodeElem (a : Elem) : (encodeElem a).length = 16 := length_bytesOf a

theorem getElem!_encodeElem (a : Elem) {k : Nat} (hk : k < 16) :
    (encodeElem a)[k]! = a.extractLsb' (8 * k) 8 := by
  rw [getElem!_eq_getD, encodeElem, getD_bytesOf, if_pos hk]

/-- Settles O54: the sum and each bit are those of `le_128`, the words are `le_64` of the two halves,
and the encoded bytes are those of `bytes_128`. -/
theorem byteOrderIsLittleEndian : Obligations.ByteOrderIsLittleEndian := by
  unfold Obligations.ByteOrderIsLittleEndian
  constructor
  · intro b hb
    exact ⟨toNat_decodeElem hb, fun k j => getLsbD_decodeElem b, loWord_decodeElem b,
      hiWord_decodeElem b⟩
  · intro a
    exact ⟨length_encodeElem a, fun k => getElem!_encodeElem a⟩

end Sys2Proof.Laws

namespace Sys2Proof.Machine

/-- Settles O12: a command answers with one response more in any two states that agree on the
registers, so in a state compared with itself. -/
theorem everyCommandGetsOneResponse : Obligations.EveryCommandGetsOneResponse := by
  unfold Obligations.EveryCommandGetsOneResponse
  intro op p s hp
  obtain ⟨t, r, hexec, hresp, -⟩ :=
    execCommand_of_same_registers (op := op) (s := s) (t := s) hp rfl rfl rfl
  exact ⟨t, r, hexec, hresp⟩

end Sys2Proof.Machine
end

section
/-! The command frame and the response frame (30_encoding.md rules R37, R38): both are a header
byte, the little-endian length and the bytes it counts, and both read back. -/

namespace Sys2Proof.Laws

variable {op l0 l1 l2 l3 : Byte} {p f : Bytes}

/-- Bytes 1 to 4 of a frame are its length field. -/
theorem slice_frameOf_lengthField (op : Byte) (p : Bytes) :
    slice (frameOf op p) 1 5 = bytesOf (BitVec.ofNat 32 p.length) := rfl

/-- A frame as its five header bytes and its payload. -/
theorem exists_header_eq_frameOf (op : Byte) (hp : p.length < 2 ^ 32) :
    ∃ l0 l1 l2 l3, p.length = leNat [l0, l1, l2, l3] ∧
      frameOf op p = op :: l0 :: l1 :: l2 :: l3 :: p :=
  ⟨_, _, _, _, (leNat_lengthField p.length hp).symm, rfl⟩

/-- Conversely, five header bytes whose length field counts the bytes after them are a frame. -/
theorem frameOf_eq_header (hlen : p.length = leNat [l0, l1, l2, l3]) :
    frameOf op p = op :: l0 :: l1 :: l2 :: l3 :: p := by
  have hfield : bytesOf (BitVec.ofNat 32 p.length) = [l0, l1, l2, l3] := by
    rw [hlen]
    exact bytesOf_le (n := 32) [l0, l1, l2, l3] rfl
  rw [frameOf, hfield]
  rfl

/-- Parsing and framing undo each other, for the payloads that a length field can count. -/
theorem parseFrame_eq_some_iff :
    parseFrame f = some (op, p) ↔ p.length < 2 ^ 32 ∧ frameOf op p = f := by
  constructor
  · intro h
    unfold parseFrame at h
    split at h
    · next o l0 l1 l2 l3 payload =>
      split_ifs at h with hlen
      cases h
      have hlt : p.length < 2 ^ 32 := by simpa [← hlen] using leNat_lt [l0, l1, l2, l3]
      exact ⟨hlt, frameOf_eq_header hlen⟩
    · cases h
  · rintro ⟨hp, rfl⟩
    obtain ⟨l0, l1, l2, l3, hlen, hframe⟩ := exists_header_eq_frameOf op hp
    rw [hframe, parseFrame, if_pos hlen]

/-- The one length rule: a byte string is no frame exactly when it has no header, or its length is
not what the header says. -/
theorem parseFrame_eq_none_iff :
    parseFrame f = none ↔ f.length < 5 ∨ f.length ≠ 5 + leNat (slice f 1 5) := by
  match f with
  | [] | [_] | [_, _] | [_, _, _] | [_, _, _, _] => simp [parseFrame]
  | op :: l0 :: l1 :: l2 :: l3 :: p =>
    have hfield : slice (op :: l0 :: l1 :: l2 :: l3 :: p) 1 5 = [l0, l1, l2, l3] := rfl
    simp only [hfield, parseFrame, List.length_cons, ite_eq_right_iff, reduceCtorEq, imp_false]
    omega

/-- The layout of a frame: its length, its first byte, its length field and its payload. -/
theorem frameOf_layout (op : Byte) (hp : p.length < 2 ^ 32) :
    (frameOf op p).length = 5 + p.length ∧ (frameOf op p)[0]? = some op ∧
      leNat (slice (frameOf op p) 1 5) = p.length ∧ (frameOf op p).drop 5 = p := by
  obtain ⟨-, hdrop, hlength⟩ := FrameShape.frameOf_shape op p
  have hfield : leNat (slice (frameOf op p) 1 5) = p.length := by
    rw [slice_frameOf_lengthField, leNat_lengthField p.length hp]
  exact ⟨hlength, rfl, hfield, hdrop⟩

/-- Settles O1: the layout of a frame, the length rule, and that parsing undoes framing and framing
parsing. -/
theorem frameFormatIsABijection : Obligations.FrameFormatIsABijection := by
  unfold Obligations.FrameFormatIsABijection
  refine ⟨fun op p hp => ?_, fun f => parseFrame_eq_none_iff, fun f op p =>
    parseFrame_eq_some_iff.mp⟩
  obtain ⟨hlength, hop, hfield, hdrop⟩ := frameOf_layout op hp
  exact ⟨hlength, hop, hfield, hdrop, parseFrame_eq_some_iff.mpr ⟨hp, rfl⟩⟩

end Sys2Proof.Laws

namespace Sys2Proof.Machine

/-- The two formats are one: a response is framed as a command of its status and result would be. -/
theorem Response.frame_eq_frameOf (r : Response) : r.frame = frameOf r.status r.result := rfl

theorem ErrorKind.code_ne_zero (e : ErrorKind) : e.code ≠ 0 := by
  cases e <;> decide

/-- The errors have different codes (rule R39). -/
theorem errorOfCode_code (e : ErrorKind) : errorOfCode e.code = some e := by
  cases e <;> rfl

/-- No status above 0x06 is produced (rule R39). -/
theorem Response.status_le_six (r : Response) : r.status.toNat ≤ 6 := by
  cases r with
  | ok b => exact Nat.zero_le 6
  | error e => cases e <;> decide

/-- Only an OK response carries a result (rules R38, R81). -/
theorem Response.result_eq_nil_of_status_ne_zero {r : Response} (h : r.status ≠ 0) :
    r.result = [] := by
  cases r with
  | ok b => exact absurd rfl h
  | error e => rfl

/-- A response frame reads back as its response. -/
theorem Response.ofFrame_frame {r : Response} (hr : r.result.length < 2 ^ 32) :
    Response.ofFrame r.frame = some r := by
  obtain ⟨l0, l1, l2, l3, hlen, hframe⟩ := Laws.exists_header_eq_frameOf r.status hr
  rw [Response.frame_eq_frameOf, hframe, Response.ofFrame, if_pos hlen]
  cases r with
  | ok b => rfl
  | error e => simpa [Response.status, Response.result, errorOfCode_code] using e.code_ne_zero

/-- Settles O7: the layout is that of the command frame, and the codes are told apart on reading. -/
theorem responseFrameFormat : Obligations.ResponseFrameFormat := by
  unfold Obligations.ResponseFrameFormat
  refine ⟨fun r hr => ?_, fun b => rfl, rfl, rfl, rfl, rfl, rfl, rfl⟩
  obtain ⟨hlength, hstatus, hfield, hdrop⟩ := Laws.frameOf_layout r.status hr
  exact ⟨hlength, hstatus, hfield, hdrop, Response.result_eq_nil_of_status_ne_zero,
    r.status_le_six, Response.ofFrame_frame hr⟩

end Sys2Proof.Machine
end

section
/-! The opcodes outside the table (30_encoding.md rule R42). -/

namespace Sys2Proof.Machine

/-- No command has an opcode in the ranges that rule R42 lists. -/
theorem opcode_not_illegal (i : Instr) :
    ¬ (i.opcode = 0x00 ∨ (0x08 ≤ i.opcode.toNat ∧ i.opcode.toNat ≤ 0x0F) ∨
      0x14 ≤ i.opcode.toNat) := by
  cases i <;> simp [Instr.opcode]

/-- An opcode that no command has answers IllegalOp, for every payload a frame can carry. -/
theorem execCommand_of_no_opcode {op : Byte} {p : Bytes} (s : State)
    (hp : p.length < Config.payloadBound) (hop : ∀ i : Instr, i.opcode ≠ op) :
    execCommand op p s = .next (s.emit (.error .illegalOp)) := by
  unfold execCommand
  cases h : decodeCmd op p with
  | ok i => exact absurd (decodeCmd_ok.mp h).1 (hop i)
  | error e => exact inFrame_of_lt _ hp

/-- Settles O5: no command has such an opcode, so the decoder selects none. -/
theorem illegalOpcodeRaisesIllegalOp : Obligations.IllegalOpcodeRaisesIllegalOp := by
  unfold Obligations.IllegalOpcodeRaisesIllegalOp
  intro op p s hp hill
  have hop : ∀ i : Instr, i.opcode ≠ op := by
    rintro i rfl
    exact opcode_not_illegal i hill
  exact ⟨execCommand_of_no_opcode s hp hop, rfl, rfl⟩

end Sys2Proof.Machine
end

section
/-! The commands with one accepted length, and CLMUL64 among them (20_memory.md rule R30, 40_clmul.md
rule R50). -/

namespace Sys2Proof.Machine

variable {p : Bytes} {n : Nat}

/-- A payload of a wrong length answers the command's length error and changes nothing else. -/
theorem inFrame_sized_of_ne (e : ErrorKind) (s : State) (k : Result)
    (hp : p.length < Config.payloadBound) (hn : p.length ≠ n) :
    inFrame p (sized p n e s k) = .next (s.emit (.error e)) := by
  rw [inFrame_of_lt _ hp, sized_of_ne e s k hn, raise_eq]

/-- A payload of the accepted length reaches the meaning that the two checks guard. -/
theorem inFrame_sized_of_eq (e : ErrorKind) (s : State) (k : Result)
    (hp : p.length < Config.payloadBound) (hn : p.length = n) :
    inFrame p (sized p n e s k) = k := by
  rw [inFrame_of_lt _ hp, sized_of_eq e s k hn]

/-- Settles O22: after the frame and length checks CLMUL64 is the one response with the product, and
the statement's operands and result are `clmulOperands` and `clmulResult` written out. -/
theorem clmul64ReturnsTheProduct : Obligations.Clmul64ReturnsTheProduct := by
  unfold Obligations.Clmul64ReturnsTheProduct
  intro p s hp
  refine ⟨rfl, fun hn => ?_, fun hn => ?_⟩
  · exact inFrame_sized_of_ne .operandSize s _ hp hn
  · exact inFrame_sized_of_eq .operandSize s _ hp hn

end Sys2Proof.Machine
end

section
/-! The reduction unit (41_reduce.md): the bit-serial form of rule R54 and the word form of rule R56
both divide by x^128 modulo p, and only one element does (rule R53). -/

namespace Sys2Proof.Laws

/-! ## The bit-serial form (rule R54) -/

/-- A round drops one bit as long as the value reaches past p. -/
theorem toNat_redcRound_lt {t : Wide} {n : Nat} (hn : 128 ≤ n) (ht : t.toNat < 2 ^ (n + 1)) :
    (redcRound t).toNat < 2 ^ n := by
  have hP : (P129.setWidth 256).toNat < 2 ^ (n + 1) := by
    rw [BitVec.toNat_setWidth_of_le (by omega)]
    exact P129.isLt.trans_le (Nat.pow_le_pow_right (by omega) (by omega))
  unfold redcRound
  rw [BitVec.toNat_ushiftRight, Nat.shiftRight_eq_div_pow, Nat.div_lt_iff_lt_mul (by omega),
    ← pow_add]
  split
  · rw [BitVec.toNat_xor]; exact Nat.xor_lt_two_pow ht hP
  · exact ht

theorem toNat_redcRounds_lt (k : Nat) {t : Wide} (ht : t.toNat < 2 ^ (128 + k)) :
    (redcRounds k t).toNat < 2 ^ 128 := by
  induction k generalizing t with
  | zero => exact ht
  | succ k ih => exact ih (toNat_redcRound_lt (by omega) ht)

theorem poly_redcRounds (k : Nat) (t : Wide) :
    ModEqP (poly (redcRounds k t) * Polynomial.X ^ k) (poly t) := by
  induction k generalizing t with
  | zero => simpa [redcRounds] using modEqP_refl (poly t)
  | succ k ih =>
    have hrest := modEqP_mul_right Polynomial.X (ih (redcRound t))
    rw [mul_assoc, ← pow_succ] at hrest
    exact modEqP_trans hrest (poly_redcRound t)

/-- Cutting off zero bits keeps the polynomial. -/
theorem poly_setWidth_of_lt {n m : Nat} {a : BitVec n} (hm : m ≤ n) (ha : a.toNat < 2 ^ m) :
    poly (a.setWidth m) = poly a := by
  rw [← poly_setWidth (a.setWidth m) hm]
  congr 1
  apply BitVec.eq_of_toNat_eq
  rw [BitVec.toNat_setWidth_of_le hm, BitVec.toNat_setWidth, Nat.mod_eq_of_lt ha]

/-- `redc` divides by x^128 modulo p. -/
theorem poly_redc (p : Wide) : ModEqP (poly (redc p) * Polynomial.X ^ 128) (poly p) := by
  unfold redc
  rw [poly_setWidth_of_lt (by omega) (toNat_redcRounds_lt 128 p.isLt)]
  exact poly_redcRounds 128 p

/-- x is invertible modulo p, so nothing else does. -/
theorem modEqP_iff_eq_redc {p : Wide} {r : Elem} :
    ModEqP (poly r * Polynomial.X ^ 128) (poly p) ↔ r = redc p := by
  constructor
  · intro h
    exact eq_of_modEqP (modEqP_cancel 128 (modEqP_trans h (modEqP_symm (poly_redc p))))
  · rintro rfl
    exact poly_redc p

/-- Settles O46: each round divides by x modulo p, 128 rounds leave 128 bits, and x^128 cancels. -/
theorem redcDividesByX128 : Obligations.RedcDividesByX128 := by
  unfold Obligations.RedcDividesByX128
  exact fun p => ⟨poly_redc p, fun _ => modEqP_iff_eq_redc.mp⟩

/-! ## The word form (rule R56) -/

/-- What a fold of the word v leaves in the word w two places above it. -/
def foldHigh (w v : Word64) : Word64 := w ^^^ v ^^^ (v >>> 1) ^^^ (v >>> 2) ^^^ (v >>> 7)

/-- What a fold of the word v leaves in the word u next above it. -/
def foldLow (u v : Word64) : Word64 := u ^^^ (v <<< 63) ^^^ (v <<< 62) ^^^ (v <<< 57)

/-- The four lines of rule R56 are two folds: of word 0, then of the new word 1. -/
theorem redcWords_eq_folds (p : Wide) :
    redcWords p =
      ofWords (foldHigh (wordOf p 3) (foldLow (wordOf p 1) (wordOf p 0)))
        (foldLow (foldHigh (wordOf p 2) (wordOf p 0)) (foldLow (wordOf p 1) (wordOf p 0))) := rfl

/-- The bits that a shift right keeps and those that the complementary shift left keeps are together
the whole word, shifted left without loss. -/
theorem poly_shifts {n k : Nat} (v : BitVec n) (hk : k ≤ n) :
    poly (v >>> k) * Polynomial.X ^ n + poly (v <<< (n - k)) =
      poly v * Polynomial.X ^ (n - k) := by
  have happend : v >>> k ++ v <<< (n - k) = v.setWidth (n + n) <<< (n - k) := by
    apply BitVec.eq_of_getLsbD_eq
    intro i hi
    simp only [BitVec.getLsbD_append, BitVec.getLsbD_ushiftRight, BitVec.getLsbD_shiftLeft,
      BitVec.getLsbD_setWidth]
    by_cases hin : i < n
    · simp [hin, hi, show i - (n - k) < n + n by omega]
    · simp [hin, hi, show k + (i - n) = i - (n - k) by omega, show ¬ i < n - k by omega,
        show i - (n - k) < n + n by omega]
  rw [← poly_append, happend, poly_shiftLeft v (n - k) (by omega)]

/-- A fold of v adds v * p, which clears v, and so divides by x^64. -/
theorem poly_fold (w u v : Word64) :
    ModEqP ((poly (foldHigh w v) * Polynomial.X ^ 64 + poly (foldLow u v)) * Polynomial.X ^ 64)
      ((poly w * Polynomial.X ^ 64 + poly u) * Polynomial.X ^ 64 + poly v) := by
  have h2 : (2 : Polynomial (ZMod 2)) = 0 := CharTwo.two_eq_zero
  refine ⟨poly v, ?_⟩
  simp only [foldHigh, foldLow, poly_xor, poly_P129]
  linear_combination Polynomial.X ^ 64 * poly_shifts v (k := 1) (by omega) +
    Polynomial.X ^ 64 * poly_shifts v (k := 2) (by omega) +
    Polynomial.X ^ 64 * poly_shifts v (k := 7) (by omega) - poly v * h2

/-- A 256-bit value is its four words (20_memory.md rule R28). -/
theorem ofFourWords_wordOf (p : Wide) :
    ofFourWords (wordOf p 3) (wordOf p 2) (wordOf p 1) (wordOf p 0) = p := by
  have hhigh : wordOf p 3 ++ wordOf p 2 = p.extractLsb' 128 128 :=
    BitVec.extractLsb'_append_extractLsb'_eq_extractLsb' rfl
  have hupper : p.extractLsb' 128 128 ++ wordOf p 1 = p.extractLsb' 64 192 :=
    BitVec.extractLsb'_append_extractLsb'_eq_extractLsb' rfl
  have hall : p.extractLsb' 64 192 ++ wordOf p 0 = p.extractLsb' 0 256 :=
    BitVec.extractLsb'_append_extractLsb'_eq_extractLsb' rfl
  rw [ofFourWords, hhigh, hupper, hall, BitVec.extractLsb'_eq_self]

theorem poly_ofFourWords (v3 v2 v1 v0 : Word64) :
    poly (ofFourWords v3 v2 v1 v0) =
      ((poly v3 * Polynomial.X ^ 64 + poly v2) * Polynomial.X ^ 64 + poly v1) *
        Polynomial.X ^ 64 + poly v0 := by
  rw [← poly_append, ← poly_append, ← poly_append]
  rfl

/-- The word form divides by x^128 modulo p: the first fold divides the three low words by x^64, and
the second one the three words that are left. -/
theorem poly_redcWords (p : Wide) :
    ModEqP (poly (redcWords p) * Polynomial.X ^ 128) (poly p) := by
  have hfirst := modEqP_add (modEqP_refl (poly (wordOf p 3) * Polynomial.X ^ 192))
    (poly_fold (wordOf p 2) (wordOf p 1) (wordOf p 0))
  have hsecond := modEqP_mul_right (Polynomial.X ^ 64) (poly_fold (wordOf p 3)
    (foldHigh (wordOf p 2) (wordOf p 0)) (foldLow (wordOf p 1) (wordOf p 0)))
  have hp := poly_ofFourWords (wordOf p 3) (wordOf p 2) (wordOf p 1) (wordOf p 0)
  rw [ofFourWords_wordOf] at hp
  rw [redcWords_eq_folds, ofWords, poly_append, hp, pow_add Polynomial.X 64 64, ← mul_assoc]
  refine modEqP_trans hsecond ?_
  convert hfirst using 1 <;> ring

/-- Settles O47: the word form too is a quotient by x^128, and there is only one. -/
theorem wordReductionEqualsRedc : Obligations.WordReductionEqualsRedc := by
  unfold Obligations.WordReductionEqualsRedc
  exact fun p => modEqP_iff_eq_redc.mp (poly_redcWords p)

end Sys2Proof.Laws

namespace Sys2Proof.Machine

/-- Settles O23: after the frame and length checks REDUCE is the one response with the reduction. -/
theorem reduceReturnsTheReduction : Obligations.ReduceReturnsTheReduction := by
  unfold Obligations.ReduceReturnsTheReduction
  intro p s hp
  refine ⟨rfl, fun hn => ?_, fun hn => ?_⟩
  · exact inFrame_sized_of_ne .operandSize s _ hp hn
  · exact inFrame_sized_of_eq .operandSize s _ hp hn

end Sys2Proof.Machine
end

section
/-! The carry-less product as the product of polynomials (00_scope.md rule R8), and its arrangements in
words (40_clmul.md rules R51, R52). -/

namespace Sys2Proof.Laws

/-- The first k bits of the left operand have contributed their part of the product. -/
theorem poly_clmulUpTo {m n k : Nat} (a : BitVec m) (b : BitVec n) (hk : k ≤ m) :
    poly (clmulUpTo a b k) =
      (∑ i ∈ Finset.range k, if a.getLsbD i = true then Polynomial.X ^ i else 0) * poly b := by
  induction k with
  | zero => simpa [clmulUpTo] using poly_zero
  | succ k ih =>
    rw [clmulUpTo, Finset.sum_range_succ, add_mul, ← ih (by omega)]
    split
    · rw [poly_xor, poly_shiftLeft b k (by omega), mul_comm (poly b)]
    · simp

theorem poly_clmul {m n : Nat} (a : BitVec m) (b : BitVec n) :
    poly (clmul a b) = poly a * poly b :=
  poly_clmulUpTo a b le_rfl

/-! ## Words -/

theorem ofWords_hiWord_loWord (a : Elem) : ofWords (hiWord a) (loWord a) = a := by
  have h : hiWord a ++ loWord a = a.extractLsb' 0 128 :=
    BitVec.extractLsb'_append_extractLsb'_eq_extractLsb' rfl
  rw [ofWords, h, BitVec.extractLsb'_eq_self]

theorem poly_words (a : Elem) :
    poly (hiWord a) * Polynomial.X ^ 64 + poly (loWord a) = poly a := by
  rw [← poly_append]
  exact congrArg poly (ofWords_hiWord_loWord a)

/-- The unit's two words are the product (40_clmul.md rule R47). -/
theorem ctmul_append (x y : Word64) : (ctmul x y).1 ++ (ctmul x y).2 = clmul x y :=
  ofWords_hiWord_loWord (clmul x y)

theorem poly_ctmul (x y : Word64) :
    poly (ctmul x y).1 * Polynomial.X ^ 64 + poly (ctmul x y).2 = poly x * poly y := by
  rw [← poly_clmul, ← poly_append, ctmul_append]

/-- Rule R51: the product of two sums of words has four word products. -/
theorem clmulFour_eq_clmul (a b : Elem) : clmulFour a b = clmul a b := by
  apply poly_inj
  rw [poly_clmul, ← poly_words a, ← poly_words b]
  simp only [clmulFour, poly_ofFourWords, poly_xor]
  linear_combination Polynomial.X ^ 128 * poly_ctmul (hiWord a) (hiWord b) +
    Polynomial.X ^ 64 * poly_ctmul (loWord a) (hiWord b) +
    Polynomial.X ^ 64 * poly_ctmul (hiWord a) (loWord b) + poly_ctmul (loWord a) (loWord b)

/-- Rule R52: the product of the two sums of words has the two mixed products, with the outer two
added, which are added again and so cancel. -/
theorem clmulThree_eq_clmul (a b : Elem) : clmulThree a b = clmul a b := by
  apply poly_inj
  have h2 : (2 : Polynomial (ZMod 2)) = 0 := CharTwo.two_eq_zero
  have hmixed := poly_ctmul (loWord a ^^^ hiWord a) (loWord b ^^^ hiWord b)
  rw [poly_xor, poly_xor] at hmixed
  rw [poly_clmul, ← poly_words a, ← poly_words b]
  simp only [clmulThree, poly_ofFourWords, poly_xor]
  linear_combination
    (Polynomial.X ^ 128 + Polynomial.X ^ 64) * poly_ctmul (hiWord a) (hiWord b) +
    Polynomial.X ^ 64 * hmixed +
    (Polynomial.X ^ 64 + 1) * poly_ctmul (loWord a) (loWord b) +
    Polynomial.X ^ 64 * (poly (loWord a) * poly (loWord b) + poly (hiWord a) * poly (hiWord b)) * h2

end Sys2Proof.Laws
end

section
/-! The field multiplier (42_field_ops.md rules R59, R68). -/

namespace Sys2Proof.Laws

/-- Settles O49: `clmul` multiplies the polynomials and `redc` divides by x^128. -/
theorem mulIsTheProductOverX128 : Obligations.MulIsTheProductOverX128 := by
  unfold Obligations.MulIsTheProductOverX128
  intro a b
  refine ⟨rfl, ?_⟩
  rw [mul, ← poly_clmul]
  exact poly_redc (clmul a b)

/-- Settles O51: the three arrangements are one product, and both reductions are the quotient by x^128,
of which there is only one. -/
theorem allMultipliersAgree : Obligations.AllMultipliersAgree := by
  unfold Obligations.AllMultipliersAgree
  intro a b P hP
  have hproduct : P = clmul a b := by
    simpa [clmulFour_eq_clmul, clmulThree_eq_clmul] using hP
  rw [hproduct]
  exact ⟨rfl, wordReductionEqualsRedc _, fun r => modEqP_iff_eq_redc⟩

end Sys2Proof.Laws

namespace Sys2Proof.Machine

/-- What a datapath command answers: OperandSize to a payload of a wrong length, its result to one of the
accepted length. -/
theorem datapath_answer {p : Bytes} {n : Nat} (s : State) (r : Bytes)
    (hp : p.length < Config.payloadBound) :
    (p.length ≠ n → inFrame p (sized p n .operandSize s (respond r s)) =
      .next (s.emit (.error .operandSize))) ∧
    (p.length = n → inFrame p (sized p n .operandSize s (respond r s)) =
      .next (s.emit (.ok r))) :=
  ⟨inFrame_sized_of_ne .operandSize s _ hp, inFrame_sized_of_eq .operandSize s _ hp⟩

/-- Settles O24: after the frame and length checks MUL is the one response with the product, and the
statement's operands are `mulOperands` written out. -/
theorem mulReturnsTheFieldProduct : Obligations.MulReturnsTheFieldProduct := by
  unfold Obligations.MulReturnsTheFieldProduct
  exact fun p s hp => ⟨rfl, datapath_answer s _ hp⟩

end Sys2Proof.Machine
end

section
/-! The doubler (42_field_ops.md rules R62, R64). -/

namespace Sys2Proof.Laws

/-! ## The doubler in words -/

theorem loWord_xor (a b : Elem) : loWord (a ^^^ b) = loWord a ^^^ loWord b :=
  BitVec.extractLsb'_xor

theorem hiWord_xor (a b : Elem) : hiWord (a ^^^ b) = hiWord a ^^^ hiWord b :=
  BitVec.extractLsb'_xor

theorem loWord_shiftLeft_one (a : Elem) : loWord (a <<< 1) = loWord a <<< 1 := by
  apply BitVec.eq_of_getLsbD_eq
  intro i hi
  simp only [loWord, BitVec.getLsbD_extractLsb', BitVec.getLsbD_shiftLeft]
  by_cases h0 : i = 0
  · simp [h0]
  · simp [h0, hi, show i < 128 by omega, show i - 1 < 64 by omega]

/-- Bit 63 of the low word moves into the high word. -/
theorem hiWord_shiftLeft_one (a : Elem) :
    hiWord (a <<< 1) = (hiWord a <<< 1) ||| (loWord a >>> 63) := by
  apply BitVec.eq_of_getLsbD_eq
  intro i hi
  simp only [hiWord, loWord, BitVec.getLsbD_extractLsb', BitVec.getLsbD_or,
    BitVec.getLsbD_shiftLeft, BitVec.getLsbD_ushiftRight]
  by_cases h0 : i = 0
  · simp [h0]
  · simp [h0, hi, show 64 + i < 128 by omega, show i - 1 < 64 by omega,
      show 64 + i - 1 = 64 + (i - 1) by omega, show ¬ 63 + i < 64 by omega]

theorem loWord_dbl (a : Elem) :
    loWord (dbl a) = (loWord a <<< 1) ^^^ (if carryOut a then 1 else 0) := by
  rw [dbl, loWord_xor, loWord_shiftLeft_one]
  cases carryOut a <;> rfl

theorem hiWord_dbl (a : Elem) :
    hiWord (dbl a) = ((hiWord a <<< 1) ||| (loWord a >>> 63)) ^^^
      (if carryOut a then 0xC200000000000000#64 else 0) := by
  rw [dbl, hiWord_xor, hiWord_shiftLeft_one]
  cases carryOut a <;> rfl

theorem dblWords_eq_dbl (a : Elem) : dblWords a = dbl a := by
  rw [← ofWords_hiWord_loWord (dbl a), hiWord_dbl, loWord_dbl]
  rfl

/-! ## The doubler multiplies by x -/

theorem poly_one {n : Nat} (hn : 0 < n) : poly 1#n = 1 := by
  simpa using poly_bit hn

/-- p is x^128 and RPOLY (rule R9). -/
theorem poly_RPOLY : Polynomial.X ^ 128 + poly RPOLY = poly P129 := by
  have h : P129 = 1#1 ++ RPOLY := by decide +kernel
  rw [h, poly_append, poly_one (by omega), one_mul]

/-- Bit 127, which the doubler shifts out, as an element. -/
theorem ushiftRight_127 (a : Elem) : a >>> 127 = if carryOut a then 1 else 0 := by
  apply BitVec.eq_of_getLsbD_eq
  intro i hi
  rw [BitVec.getLsbD_ushiftRight]
  by_cases h0 : i = 0
  · subst h0
    unfold carryOut
    cases h : a.getLsbD 127 <;> simp
  · rw [BitVec.getLsbD_of_ge a _ (by omega)]
    cases carryOut a <;> simp [h0]

/-- What the doubler adds is RPOLY times the bit it shifts out. -/
theorem poly_carry (a : Elem) :
    poly (if carryOut a then RPOLY else 0) = poly (a >>> 127) * poly RPOLY := by
  rw [ushiftRight_127]
  cases carryOut a
  · change poly 0 = poly 0 * poly RPOLY
    rw [poly_zero, zero_mul]
  · change poly RPOLY = poly 1#128 * poly RPOLY
    rw [poly_one (by omega), one_mul]

/-- The doubler drops the bit for x^128 that it shifts out and adds RPOLY for it, so in all it adds
that bit times p. -/
theorem poly_dbl (a : Elem) : ModEqP (poly (dbl a)) (Polynomial.X * poly a) := by
  have h2 : (2 : Polynomial (ZMod 2)) = 0 := CharTwo.two_eq_zero
  have hshift := poly_shifts a (k := 127) (by omega)
  refine ⟨poly (a >>> 127), ?_⟩
  rw [dbl, poly_xor, poly_carry, ← poly_RPOLY]
  linear_combination hshift - poly (a >>> 127) * Polynomial.X ^ 128 * h2

/-- On the operand 1 the factor x^(-128) of `mul` shows. -/
theorem dbl_one_ne_mul_one_two : dbl 1 ≠ mul 1 2 := by decide +kernel

/-- Settles O52: the word laws of the shift and of the exclusive or give the words, and the bit shifted
out decides whether p is added. -/
theorem doubleMultipliesByX : Obligations.DoubleMultipliesByX := by
  unfold Obligations.DoubleMultipliesByX
  exact ⟨fun a => rfl, fun a => ⟨loWord_dbl a, hiWord_dbl a⟩,
    fun a => ⟨dblWords_eq_dbl a, poly_dbl a⟩, 1, dbl_one_ne_mul_one_two⟩

end Sys2Proof.Laws

namespace Sys2Proof.Machine

/-- Settles O25: after the frame and length checks DOUBLE is the one response with the double. -/
theorem doubleReturnsTheDouble : Obligations.DoubleReturnsTheDouble := by
  unfold Obligations.DoubleReturnsTheDouble
  exact fun p s hp => ⟨rfl, datapath_answer s _ hp⟩

end Sys2Proof.Machine
end

section
/-! The accumulator commands INIT, UPDATE, SUM, BLOCKSIZE and STATUS (43_accumulator.md). -/

namespace Sys2Proof.Machine

variable {p : Bytes} {s : State}

/-- A command that reads H and Y answers NotReady in UNINIT, before any other of its checks. -/
theorem inFrame_whenReady_of_uninit (k : Elem → Elem → Result) (hp : p.length < Config.payloadBound)
    (hs : s.phase = .uninit) : inFrame p (whenReady s k) = .next (s.emit (.error .notReady)) := by
  rw [inFrame_of_lt _ hp, whenReady_of_uninit k hs, raise_eq]

/-- In READY such a command goes on with the H and Y that the state holds. -/
theorem inFrame_whenReady_of_ready (k : Elem → Elem → Result) (hp : p.length < Config.payloadBound)
    (hs : s.phase = .ready) : inFrame p (whenReady s k) = k s.h s.y := by
  rw [inFrame_of_lt _ hp, whenReady_of_ready k hs]

theorem statusByte_of_ready (hs : s.phase = .ready) : s.statusByte = 0x01 := by
  rw [State.statusByte, hs]; rfl

theorem statusByte_of_uninit (hs : s.phase = .uninit) : s.statusByte = 0x00 := by
  rw [State.statusByte, hs]; rfl

/-- Absorbing the first k blocks of a payload is the loop of rule R71 over i = 1..k. -/
theorem absorb_blockAt_range (p : Bytes) (h y : Elem) (k : Nat) :
    absorb h y ((List.range k).map (blockAt p)) =
      Nat.fold k (fun i _ t => mul (t ^^^ le 128 (slice p (16 * i) (16 * (i + 1)))) h) y := by
  induction k with
  | zero => rfl
  | succ k ih =>
    rw [List.range_succ, List.map_append, absorb, List.foldl_append, Nat.fold_succ, ← ih]
    rfl

/-- A payload of 16k bytes has the blocks 0 to k - 1. -/
theorem blocksOf_of_length {k : Nat} (hk : p.length = 16 * k) :
    blocksOf p = (List.range k).map (blockAt p) := by
  rw [blocksOf, hk, Nat.mul_div_cancel_left k (by decide)]

/-- Settles O16: the phase and the block check decide the answer, and with k blocks the absorbed value
is the loop of rule R71, by induction on k. -/
theorem updateAbsorbsTheBlocksInOrder : Obligations.UpdateAbsorbsTheBlocksInOrder := by
  unfold Obligations.UpdateAbsorbsTheBlocksInOrder
  intro p s hp
  refine ⟨rfl, fun hs => ?_, fun hs hbad => ?_, fun k hs hk hpos => ?_⟩
  · exact inFrame_whenReady_of_uninit _ hp hs
  · exact (inFrame_whenReady_of_ready _ hp hs).trans (if_pos hbad)
  · have hgood : ¬ (p.length = 0 ∨ p.length % 16 ≠ 0) := by omega
    calc exec (.update p) s
      _ = respond [] (s.setY (absorb s.h s.y (blocksOf p))) :=
        (inFrame_whenReady_of_ready _ hp hs).trans (if_neg hgood)
      _ = _ := by rw [blocksOf_of_length hk, absorb_blockAt_range]; rfl

/-- Settles O15: after the frame and length checks INIT is the one response over the loaded state. -/
theorem initStartsAnAccumulator : Obligations.InitStartsAnAccumulator := by
  unfold Obligations.InitStartsAnAccumulator
  intro p s hp
  refine ⟨rfl, fun hn => ?_, fun hn => ?_⟩
  · exact inFrame_sized_of_ne .keySize s _ hp hn
  · exact inFrame_sized_of_eq .keySize s _ hp hn

/-- Settles O17: the phase check comes before the length check, and SUM writes nothing. -/
theorem sumReadsTheDigest : Obligations.SumReadsTheDigest := by
  unfold Obligations.SumReadsTheDigest
  intro p s hp
  refine ⟨rfl, fun hs => ?_, fun hs hn => ?_, fun hs hn => ?_⟩
  · exact inFrame_whenReady_of_uninit _ hp hs
  · exact (inFrame_whenReady_of_ready _ hp hs).trans (sized_of_ne .operandSize s _ hn)
  · exact (inFrame_whenReady_of_ready _ hp hs).trans (sized_of_eq .operandSize s _ hn)

/-- Settles O18: BLOCKSIZE reads no register, so it answers as a datapath command does. -/
theorem blocksizeReturnsSixteen : Obligations.BlocksizeReturnsSixteen := by
  unfold Obligations.BlocksizeReturnsSixteen
  exact fun p s hp => ⟨rfl, datapath_answer s [blockSizeByte] hp⟩

/-- Settles O19: after the length check STATUS is the one response with the status byte, which each
phase fixes. -/
theorem statusReturnsThePhase : Obligations.StatusReturnsThePhase := by
  unfold Obligations.StatusReturnsThePhase
  intro p s hp
  obtain ⟨hbad, hgood⟩ := datapath_answer (p := p) (n := 0) s [s.statusByte] hp
  refine ⟨rfl, hbad, fun hn hs => ?_, fun hn hs => ?_⟩
  · exact statusByte_of_ready hs ▸ hgood hn
  · exact statusByte_of_uninit hs ▸ hgood hn

end Sys2Proof.Machine
end

section
/-! State export and import, SAVE and RESTORE (44_state_serialization.md rules R77 to R79). -/

namespace Sys2Proof.Laws

/-- The middle one of three strings stands from the end of the first on. -/
theorem slice_append_middle (a b c : Bytes) {i j : Nat} (hi : a.length = i) (hj : i + b.length = j) :
    slice (a ++ b ++ c) i j = b := by
  subst hi hj
  rw [slice, ← List.length_append, List.take_left, List.drop_left]

/-- Tag and two elements' bytes are a state blob (rule R77), and no data byte is refused. -/
theorem parseBlob_append (tag : Bytes) {hb yb : Bytes} (hh : hb.length = 16) (hy : yb.length = 16) :
    parseBlob tag (tag ++ hb ++ yb) = some (decodeElem hb, decodeElem yb) := by
  have hlen : (tag ++ hb ++ yb).length = tag.length + 32 := by
    simp only [List.length_append, hh, hy]
  have htag : slice (tag ++ hb ++ yb) 0 tag.length = tag := by
    simpa using slice_append_middle [] tag (hb ++ yb) rfl (Nat.zero_add _)
  have hkey : slice (tag ++ hb ++ yb) tag.length (tag.length + 16) = hb :=
    slice_append_middle tag hb yb rfl (by rw [hh])
  have hdigest : slice (tag ++ hb ++ yb) (tag.length + 16) (tag.length + 32) = yb := by
    simpa using slice_append_middle (tag ++ hb) yb [] (by rw [List.length_append, hh]) (by rw [hy])
  exact Machine.parseBlob_eq_some.mpr ⟨hlen, htag, by rw [hkey], by rw [hdigest]⟩

end Sys2Proof.Laws

namespace Sys2Proof.Machine

variable {tag p : Bytes}

/-- A payload that is no blob answers StateFormat and changes nothing else, in either phase (decision
D15). -/
theorem restoreWith_of_parseBlob_none (s : State) (hp : p.length < Config.payloadBound)
    (hblob : parseBlob tag p = none) :
    restoreWith tag p s = .next (s.emit (.error .stateFormat)) := by
  simp only [restoreWith, inFrame_of_lt _ hp, hblob, raise_eq]

/-- A blob loads the two elements it holds and answers OK with the empty result. -/
theorem restoreWith_of_parseBlob_some (s : State) {h y : Elem} (hp : p.length < Config.payloadBound)
    (hblob : parseBlob tag p = some (h, y)) :
    restoreWith tag p s = .next ((s.load h y).emit (.ok [])) := by
  simp only [restoreWith, inFrame_of_lt _ hp, hblob, respond_eq]

/-- STATE_TAG and two 16-byte strings are the payload of a frame (rule R37). -/
theorem length_stateTag_append_lt {hb yb : Bytes} (hh : hb.length = 16) (hy : yb.length = 16) :
    (Config.stateTag ++ hb ++ yb).length < Config.payloadBound := by
  simpa only [List.length_append, hh, hy] using stateTag_fits

/-- Settles O21: a payload is refused exactly where it is no blob, and STATE_TAG with two 16-byte
strings is a blob that reads back as the two strings decoded. -/
theorem restoreImportsAState : Obligations.RestoreImportsAState := by
  unfold Obligations.RestoreImportsAState
  constructor
  · intro p s hp
    exact ⟨rfl, fun hbad => restoreWith_of_parseBlob_none s hp (parseBlob_eq_none.mpr hbad)⟩
  · intro hb yb s hh hy
    exact restoreWith_of_parseBlob_some s (length_stateTag_append_lt hh hy)
      (Laws.parseBlob_append _ hh hy)

/-- Settles O20: the phase check comes before the length check, and SAVE writes nothing; the statement's
result is `blobOf` written out. -/
theorem saveExportsTheState : Obligations.SaveExportsTheState := by
  unfold Obligations.SaveExportsTheState
  intro p s hp
  refine ⟨rfl, fun hs => ?_, fun hs hn => ?_, fun hs hn => ?_⟩
  · exact inFrame_whenReady_of_uninit _ hp hs
  · exact (inFrame_whenReady_of_ready _ hp hs).trans (sized_of_ne .operandSize s _ hn)
  · exact (inFrame_whenReady_of_ready _ hp hs).trans (sized_of_eq .operandSize s _ hn)

end Sys2Proof.Machine
end

section
/-! The errors of a command (60_exceptions.md): the answer is what the table `firstError` of rule R89
says, and that table gives each error exactly the causes of rules R82 to R87. -/

namespace Sys2Proof.Machine

variable {op : Byte} {p : Bytes} {i : Instr} {e : ErrorKind} {err : Option ErrorKind}
  {s t : State} {ph : Phase}

/-! ## The answer is the first error that applies -/

/-- From state s the block answers with the error and changes nothing else, or with OK when there is no
error. -/
def AnswersWith (err : Option ErrorKind) (s t : State) : Prop :=
  match err with
  | some e => t = s.emit (.error e)
  | none => ∃ b, t.responses = s.responses ++ [.ok b]

/-- A command that has passed its checks and written no response yet answers OK. -/
theorem answersWith_none_of_respond {r : Bytes} {u : State} (h : respond r u = .next t)
    (hu : u.responses = s.responses) : AnswersWith none s t := by
  cases h
  exact ⟨r, by rw [emit_responses, hu]⟩

/-- The errors of a check are its own and then those of what it guards; `sized` is such a check. -/
theorem answersWith_of_check {bad : Prop} [Decidable bad] {k : Result}
    (h : (if bad then raise e s else k) = .next t) (hk : k = .next t → AnswersWith err s t) :
    AnswersWith (if bad then some e else err) s t := by
  split_ifs at h ⊢
  · cases h; rfl
  · exact hk h

/-- The check of PHASE comes before what it guards, so NotReady comes before any other error. -/
theorem answersWith_of_whenReady {k : Elem → Elem → Result}
    (h : whenReady s k = .next t) (hk : k s.h s.y = .next t → AnswersWith err s t) :
    AnswersWith (if s.phase = .uninit then some .notReady else err) s t := by
  rcases whenReady_next.mp h with ⟨hs, ht⟩ | ⟨hs, hnext⟩
  · rw [if_pos hs]; exact ht
  · rw [if_neg (by simp [hs])]; exact hk hnext

/-- The checks of rule R89 on a pair that decodes: NotReady, the length, the tag. -/
theorem firstError_command (i : Instr) (ph : Phase) :
    firstError i.opcode i.payload ph =
      if needsReady i = true ∧ ph = .uninit then some .notReady
      else if acceptsLength i = false then some (lengthError i)
      else if tagMatches i = false then some .stateFormat
      else none := by
  rw [firstError, decodeCmd_ok.mpr ⟨rfl, rfl⟩]

/-- RESTORE has an error exactly when its payload is no blob under STATE_TAG. -/
theorem firstError_restore (p : Bytes) (ph : Phase) :
    firstError (Instr.restore p).opcode (Instr.restore p).payload ph =
      if parseBlob Config.stateTag p = none then some .stateFormat else none := by
  rw [firstError_command]
  simp only [parseBlob_eq_none, length_stateTag, needsReady, acceptsLength, lengthError, tagMatches]
  by_cases hn : p.length = Config.tagLen.val + 32 <;> simp [hn, slice]

/-- A meaning makes its checks in the order of rule R89. -/
theorem exec_answersWith_firstError (h : exec i s = .next t) :
    AnswersWith (firstError i.opcode i.payload s.phase) s t := by
  cases i with
  | update p =>
    have hans := answersWith_of_whenReady (inFrame_next.mp h).2 fun h =>
      answersWith_of_check h fun h => answersWith_none_of_respond h rfl
    simpa [firstError_command, needsReady, acceptsLength, lengthError, tagMatches,
      Nat.one_le_iff_ne_zero, imp_iff_not_or] using hans
  | sum p | save p =>
    have hans := answersWith_of_whenReady (inFrame_next.mp h).2 fun h =>
      answersWith_of_check h fun h => answersWith_none_of_respond h rfl
    simpa [firstError_command, needsReady, acceptsLength, lengthError, tagMatches] using hans
  | restore p =>
    rw [firstError_restore]
    have h := (inFrame_next.mp h).2
    split at h
    · next hblob => cases h; rw [if_pos hblob]; rfl
    · next hblob => rw [hblob]; exact answersWith_none_of_respond h rfl
  | init p | blocksize p | status p | clmul64 p | reduce p | mul p | double p =>
    have hans := answersWith_of_check (inFrame_next.mp h).2 fun h =>
      answersWith_none_of_respond h rfl
    simpa [firstError_command, needsReady, acceptsLength, lengthError, tagMatches] using hans

/-- A command over pairs answers with the first error that applies; for an opcode outside the table that
is IllegalOp. -/
theorem execCommand_answersWith_firstError (h : execCommand op p s = .next t) :
    AnswersWith (firstError op p s.phase) s t := by
  rcases execCommand_next.mp h with ⟨i, hdec, hexec⟩ | ⟨hdec, -, rfl⟩
  · obtain ⟨rfl, rfl⟩ := decodeCmd_ok.mp hdec
    exact exec_answersWith_firstError hexec
  · rw [firstError, hdec]; rfl

/-- The one response is an error exactly when it is the first error that applies. -/
theorem responses_eq_error_iff (h : execCommand op p s = .next t) :
    t.responses = s.responses ++ [.error e] ↔ firstError op p s.phase = some e := by
  have hans := execCommand_answersWith_firstError h
  cases hfirst : firstError op p s.phase with
  | some e' =>
    rw [hfirst] at hans
    obtain rfl := hans
    simp
  | none =>
    rw [hfirst] at hans
    obtain ⟨b, hb⟩ := hans
    simp [hb]

/-- Settles O30: the command answers, and with the first error of the table or with OK. -/
theorem firstApplicableErrorIsReported : Obligations.FirstApplicableErrorIsReported := by
  unfold Obligations.FirstApplicableErrorIsReported
  intro op p s hp
  obtain ⟨t, -, hexec, -⟩ := everyCommandGetsOneResponse op p s hp
  have hans := execCommand_answersWith_firstError hexec
  constructor
  · intro e he
    rw [he] at hans
    exact hexec.trans (congrArg _ hans)
  · intro hnone
    rw [hnone] at hans
    obtain ⟨b, hb⟩ := hans
    exact ⟨t, b, hexec, hb⟩

/-- Settles O31: an error that the response shows is the first that applies, with which the command
answers and changes nothing else. -/
theorem errorsLeaveTheState : Obligations.ErrorsLeaveTheState := by
  unfold Obligations.ErrorsLeaveTheState
  intro op p s t e h hresp
  have hans := execCommand_answersWith_firstError h
  rw [(responses_eq_error_iff h).mp hresp] at hans
  exact ⟨hans, rfl, e.code_ne_zero, rfl⟩

/-! ## The causes of each error -/

/-- The causes of each error, one rule each from R82 to R87. -/
def ErrorKind.Cause (op : Byte) (p : Bytes) (ph : Phase) : ErrorKind → Prop
  | .keySize => op = 0x01 ∧ p.length ≠ 16
  | .blockSize => op = 0x02 ∧ ph = .ready ∧ (p.length = 0 ∨ p.length % 16 ≠ 0)
  | .stateFormat => op = 0x06 ∧ (p.length ≠ Config.stateTag.length + 32 ∨
      p.take Config.stateTag.length ≠ Config.stateTag)
  | .notReady => (op = 0x02 ∨ op = 0x03 ∨ op = 0x05) ∧ ph = .uninit
  | .operandSize =>
      ((op = 0x03 ∨ op = 0x05) ∧ ph = .ready ∧ p.length ≠ 0) ∨
      ((op = 0x04 ∨ op = 0x07) ∧ p.length ≠ 0) ∨
      ((op = 0x10 ∨ op = 0x13) ∧ p.length ≠ 16) ∨
      ((op = 0x11 ∨ op = 0x12) ∧ p.length ≠ 32)
  | .illegalOp => op = 0x00 ∨ (0x08 ≤ op.toNat ∧ op.toNat ≤ 0x0F) ∨ 0x14 ≤ op.toNat

/-- For a command the checks of rule R89 are the causes of rules R82 to R86. A command that needs READY
has NotReady alone in UNINIT, and its length error in READY alone. -/
theorem firstError_command_eq_some_iff :
    firstError i.opcode i.payload ph = some e ↔ e.Cause i.opcode i.payload ph := by
  cases i with
  | restore p =>
    rw [firstError_restore]
    cases e <;>
      simp [ErrorKind.Cause, Instr.opcode, Instr.payload, parseBlob_eq_none, slice,
        imp_iff_not_or]
  | update p | sum p | save p =>
    rw [firstError_command]
    cases ph with
    | uninit => cases e <;> simp [ErrorKind.Cause, Instr.opcode, needsReady]
    | ready =>
      cases e <;>
        simp [ErrorKind.Cause, Instr.opcode, Instr.payload, acceptsLength, lengthError, tagMatches,
          Nat.one_le_iff_ne_zero, imp_iff_not_or]
  | init p | blocksize p | status p | clmul64 p | reduce p | mul p | double p =>
    rw [firstError_command]
    cases e <;>
      simp [ErrorKind.Cause, Instr.opcode, Instr.payload, needsReady, acceptsLength, lengthError,
        tagMatches]

/-- An opcode that selects no command lies in the ranges that rule R42 lists. -/
theorem illegal_of_decodeCmd_error {d : DecodeError} (h : decodeCmd op p = .error d) :
    op = 0x00 ∨ (0x08 ≤ op.toNat ∧ op.toNat ≤ 0x0F) ∨ 0x14 ≤ op.toNat := by
  unfold decodeCmd at h
  split at h <;> cases h
  change op = 0#8 ∨ _
  simp only [← BitVec.toNat_inj, BitVec.toNat_ofNat, imp_false] at *
  omega

/-- Every cause but that of IllegalOp names the opcode of a command. -/
theorem exists_opcode_of_cause (h : e.Cause op p ph) (he : e ≠ .illegalOp) :
    ∃ i : Instr, i.opcode = op := by
  cases e with
  | keySize => exact ⟨.init p, h.1.symm⟩
  | blockSize => exact ⟨.update p, h.1.symm⟩
  | stateFormat => exact ⟨.restore p, h.1.symm⟩
  | notReady =>
    obtain ⟨rfl | rfl | rfl, -⟩ := h
    exacts [⟨.update p, rfl⟩, ⟨.sum p, rfl⟩, ⟨.save p, rfl⟩]
  | operandSize =>
    obtain ⟨rfl | rfl, -⟩ | ⟨rfl | rfl, -⟩ | ⟨rfl | rfl, -⟩ | ⟨rfl | rfl, -⟩ := h
    exacts [⟨.sum p, rfl⟩, ⟨.save p, rfl⟩, ⟨.blocksize p, rfl⟩, ⟨.status p, rfl⟩,
      ⟨.clmul64 p, rfl⟩, ⟨.double p, rfl⟩, ⟨.reduce p, rfl⟩, ⟨.mul p, rfl⟩]
  | illegalOp => exact absurd rfl he

/-- An error is the first that applies exactly for its causes, so no two errors share a cause. -/
theorem firstError_eq_some_iff : firstError op p ph = some e ↔ e.Cause op p ph := by
  cases hdec : decodeCmd op p with
  | ok i =>
    obtain ⟨rfl, rfl⟩ := decodeCmd_ok.mp hdec
    exact firstError_command_eq_some_iff
  | error d =>
    have hill := illegal_of_decodeCmd_error hdec
    have hfirst : firstError op p ph = some .illegalOp := by rw [firstError, hdec]
    rw [hfirst, Option.some.injEq]
    constructor
    · rintro rfl
      exact hill
    · intro hcause
      by_contra he
      obtain ⟨i, rfl⟩ := exists_opcode_of_cause hcause (Ne.symm he)
      exact opcode_not_illegal i hill

/-- Settles O29: the answer shows an error exactly when that error is the first to apply, and so exactly
for its causes. -/
theorem eachErrorHasItsCausesAndCode : Obligations.EachErrorHasItsCausesAndCode := by
  unfold Obligations.EachErrorHasItsCausesAndCode
  intro op p s t h
  have key : ∀ e, t.responses = s.responses ++ [.error e] ↔ e.Cause op p s.phase := fun e =>
    (responses_eq_error_iff h).trans firstError_eq_some_iff
  exact ⟨key .keySize, key .blockSize, key .stateFormat, key .notReady, key .operandSize,
    key .illegalOp, rfl, rfl, rfl, rfl, rfl, rfl⟩

end Sys2Proof.Machine
end

section
/-! Commands that overlap on the port (20_memory.md, 70_reset_and_hazards.md rule R101). -/

namespace Sys2Proof.Machine

/-- More than one command on the port has no meaning, whatever the commands are. -/
theorem step_refuses_overlap {s : State} (h : 2 ≤ s.cmdPort.length) :
    step s = .refused .overlappingCommands := by
  have hfetch : nextFrame s = .overlap := nextFrame_eq_overlap.mpr h
  rw [step, hfetch]

/-- Settles O11: with one command on the port, presenting another puts two there. -/
theorem overlappingCommandsAreRefused : Obligations.OverlappingCommandsAreRefused := by
  unfold Obligations.OverlappingCommandsAreRefused
  intro s f g hport
  have hlen : 2 ≤ (s.present g).cmdPort.length := by simp [hport]
  exact step_refuses_overlap hlen

end Sys2Proof.Machine
end

section
/-! Decoding a frame undoes encoding a command, and the opcode map (30_encoding.md rules R37, R41 to
R44). -/

namespace Sys2Proof.Machine

variable {op : Byte} {p f : Bytes} {i : Instr}

/-- The decoder answers a command exactly for the frame of that command. -/
theorem decodeFrame_eq_ok_iff : decodeFrame f = .ok i ↔ i.WellFormed ∧ encode i = f := by
  rw [decodeFrame_ok]
  constructor
  · rintro ⟨op, p, hparse, hdec⟩
    obtain ⟨rfl, rfl⟩ := decodeCmd_ok.mp hdec
    exact Laws.parseFrame_eq_some_iff.mp hparse
  · intro hframe
    exact ⟨i.opcode, i.payload, Laws.parseFrame_eq_some_iff.mpr hframe, decodeCmd_ok.mpr ⟨rfl, rfl⟩⟩

/-- Settles O2: the decoder answers i on the frame of i. -/
theorem decodeOfEncodeIsIdentity : Obligations.DecodeOfEncodeIsIdentity := by
  unfold Obligations.DecodeOfEncodeIsIdentity
  exact fun i hi => decodeFrame_eq_ok_iff.mpr ⟨hi, rfl⟩

/-- Settles O3: it answers i on no other byte string. -/
theorem encodeOfDecodeIsIdentity : Obligations.EncodeOfDecodeIsIdentity := by
  unfold Obligations.EncodeOfDecodeIsIdentity
  exact fun f i => decodeFrame_eq_ok_iff.mp

/-- The decoder's one reason to select no command names the opcode. -/
theorem eq_illegalOp_of_decodeCmd_error {e : DecodeError} (h : decodeCmd op p = .error e) :
    e = .illegalOp op := by
  unfold decodeCmd at h
  split at h <;> cases h
  rfl

/-- The decoder selects no command exactly in the ranges that rule R42 lists. -/
theorem decodeCmd_error_iff :
    decodeCmd op p = .error (.illegalOp op) ↔
      op = 0x00 ∨ (0x08 ≤ op.toNat ∧ op.toNat ≤ 0x0F) ∨ 0x14 ≤ op.toNat := by
  constructor
  · exact illegal_of_decodeCmd_error
  · intro hill
    cases hdec : decodeCmd op p with
    | ok i =>
      obtain ⟨rfl, -⟩ := decodeCmd_ok.mp hdec
      exact absurd hill (opcode_not_illegal i)
    | error e => rw [eq_illegalOp_of_decodeCmd_error hdec]

/-- Settles O4: a command is selected by its own opcode, and none by the opcodes of rule R42. -/
theorem opcodeMapIsExact : Obligations.OpcodeMapIsExact := by
  unfold Obligations.OpcodeMapIsExact
  refine ⟨fun p => ?_, fun op p => decodeCmd_error_iff.symm⟩
  have hdec (i : Instr) : decodeCmd i.opcode i.payload = .ok i := decodeCmd_ok.mpr ⟨rfl, rfl⟩
  exact ⟨hdec (.init p), hdec (.update p), hdec (.sum p), hdec (.blocksize p), hdec (.save p),
    hdec (.restore p), hdec (.status p), hdec (.clmul64 p), hdec (.reduce p), hdec (.mul p),
    hdec (.double p)⟩

/-- Settles O6: each of the six is the frame of its command, whose payload has at most 32 bytes. -/
theorem specFramesDecode : Obligations.SpecFramesDecode := by
  unfold Obligations.SpecFramesDecode
  simp only [decodeFrame_eq_ok_iff]
  decide

end Sys2Proof.Machine
end

section
/-! What a run can tell of H and Y (10_state.md rules R14, R15, R23): two runs of one command
compared, shared operation by shared operation. -/

namespace Sys2Proof.Machine

variable {R : State → State → Prop} {op : Byte} {p f : Bytes} {i : Instr} {s t : State}
  {a b : Result}

/-! ## Two outcomes compared -/

/-- Both answer, with states that R relates, or both are refused for one reason. -/
def AnswerAlike (R : State → State → Prop) : Result → Result → Prop
  | .next s, .next t => R s t
  | .refused r, .refused r' => r = r'
  | _, _ => False

theorem AnswerAlike.next (h : AnswerAlike R a b) {s' : State} (ha : a = .next s') :
    ∃ t', b = .next t' ∧ R s' t' := by
  subst ha
  cases b with
  | next t' => exact ⟨t', rfl, h⟩
  | fault r => exact h.elim
  | refused r => exact h.elim

theorem AnswerAlike.refused (h : AnswerAlike R a b) {r : Refusal} (ha : a = .refused r) :
    b = .refused r := by
  subst ha
  cases b with
  | next t' => exact h.elim
  | fault r' => exact h.elim
  | refused r' => exact congrArg _ (Eq.symm h)

theorem inFrame_alike (h : AnswerAlike R a b) : AnswerAlike R (inFrame p a) (inFrame p b) := by
  unfold inFrame
  split
  · exact h
  · rfl

/-- Two runs of one check on the payload. -/
theorem check_alike {bad : Prop} [Decidable bad] {e : ErrorKind}
    (hemit : ∀ r, R (s.emit r) (t.emit r)) (h : AnswerAlike R a b) :
    AnswerAlike R (if bad then raise e s else a) (if bad then raise e t else b) := by
  split
  · exact hemit _
  · exact h

theorem whenReady_alike {k l : Elem → Elem → Result} (hemit : ∀ r, R (s.emit r) (t.emit r))
    (hphase : s.phase = t.phase) (h : s.phase = .ready → AnswerAlike R (k s.h s.y) (l t.h t.y)) :
    AnswerAlike R (whenReady s k) (whenReady t l) := by
  cases hs : s.phase with
  | uninit =>
    rw [whenReady_of_uninit k hs, whenReady_of_uninit l (hphase ▸ hs)]
    exact hemit _
  | ready =>
    rw [whenReady_of_ready k hs, whenReady_of_ready l (hphase ▸ hs)]
    exact h hs

/-- All that a command can tell apart in two states of one PHASE: in READY UPDATE reads H and Y, SUM
reads Y, and SAVE reads both; nothing else reads either. -/
theorem exec_alike (hphase : s.phase = t.phase) (hemit : ∀ r, R (s.emit r) (t.emit r))
    (hload : ∀ h y r, R ((s.load h y).emit r) ((t.load h y).emit r))
    (hupdate : s.phase = .ready → ∀ xs r,
      R ((s.setY (absorb s.h s.y xs)).emit r) ((t.setY (absorb t.h t.y xs)).emit r))
    (hsum : s.phase = .ready → (∃ p, i = .sum p) → s.y = t.y)
    (hsave : s.phase = .ready → (∃ p, i = .save p) → s.h = t.h ∧ s.y = t.y) :
    AnswerAlike R (exec i s) (exec i t) := by
  cases i with
  | init p => exact inFrame_alike (check_alike hemit (hload _ _ _))
  | update p =>
    exact inFrame_alike (whenReady_alike hemit hphase fun hs =>
      check_alike hemit (hupdate hs _ _))
  | sum p =>
    refine inFrame_alike (whenReady_alike hemit hphase fun hs => check_alike hemit ?_)
    rw [hsum hs ⟨p, rfl⟩]
    exact hemit _
  | save p =>
    refine inFrame_alike (whenReady_alike hemit hphase fun hs => check_alike hemit ?_)
    obtain ⟨hh, hy⟩ := hsave hs ⟨p, rfl⟩
    rw [hh, hy]
    exact hemit _
  | restore p =>
    refine inFrame_alike ?_
    cases parseBlob Config.stateTag p with
    | none => exact hemit _
    | some hy => exact hload _ _ _
  | status p =>
    refine inFrame_alike (check_alike hemit ?_)
    rw [State.statusByte, State.statusByte, hphase]
    exact hemit _
  | blocksize p | clmul64 p | reduce p | mul p | double p =>
    exact inFrame_alike (check_alike hemit (hemit _))

/-! ## Runs that look alike -/

theorem SameView.emit (h : SameView s t) (r : Response) : SameView (s.emit r) (t.emit r) := by
  obtain ⟨hphase, hport, hresp, hscript, hregs⟩ := h
  exact ⟨hphase, hport, congrArg (· ++ [r]) hresp, hscript, hregs⟩

theorem SameView.load (h : SameView s t) (k y : Elem) : SameView (s.load k y) (t.load k y) := by
  obtain ⟨-, hport, hresp, hscript, -⟩ := h
  exact ⟨rfl, hport, hresp, hscript, fun _ => ⟨rfl, rfl⟩⟩

/-- While READY two states that look alike are one state. -/
theorem SameView.eq_of_ready (h : SameView s t) (hs : s.phase = .ready) : s = t := by
  obtain ⟨hphase, hport, hresp, hscript, hregs⟩ := h
  obtain ⟨hh, hy⟩ := hregs hs
  cases s
  cases t
  simp_all

theorem sameView_refl (s : State) : SameView s s := ⟨rfl, rfl, rfl, rfl, fun _ => ⟨rfl, rfl⟩⟩

theorem execCommand_sameView (h : SameView s t) :
    AnswerAlike SameView (execCommand op p s) (execCommand op p t) := by
  unfold execCommand
  cases decodeCmd op p with
  | ok i =>
    refine exec_alike h.1 h.emit (fun k y r => (h.load k y).emit r) (fun hs xs r => ?_)
      (fun hs _ => congrArg State.y (h.eq_of_ready hs)) fun hs _ => ?_
    · rw [h.eq_of_ready hs]
      exact sameView_refl _
    · rw [h.eq_of_ready hs]
      exact ⟨rfl, rfl⟩
  | error e => exact inFrame_alike (h.emit _)

theorem runFrame_sameView (h : SameView s t) :
    AnswerAlike SameView (runFrame f s) (runFrame f t) := by
  unfold runFrame
  cases parseFrame f with
  | none => rfl
  | some c => exact execCommand_sameView h

/-- The command port holds the same in states that look alike, and they look alike without it. -/
theorem step_sameView (h : SameView s t) : AnswerAlike SameView (step s) (step t) := by
  obtain ⟨hphase, hport, hresp, hscript, hregs⟩ := id h
  unfold step nextFrame
  rw [← hport, ← hscript]
  match s.cmdPort, s.script with
  | [], [] => exact h
  | [], f :: rest => exact runFrame_sameView ⟨hphase, rfl, hresp, rfl, hregs⟩
  | [f], _ => exact runFrame_sameView ⟨hphase, rfl, hresp, rfl, hregs⟩
  | _ :: _ :: _, _ => rfl

/-- Settles O36: in UNINIT no shared operation reads H or Y, and in READY the two states are one. -/
theorem uninitialisedRegistersAreUnobservable :
    Obligations.UninitialisedRegistersAreUnobservable := by
  unfold Obligations.UninitialisedRegistersAreUnobservable
  exact fun s t h => ⟨fun s' => (step_sameView h).next, fun r => (step_sameView h).refused⟩

/-! ## Which responses tell H or Y -/

/-- The responses after any command but SAVE do not tell H, and after any but SUM and SAVE they do
not tell Y. -/
theorem exec_responses_alike (hphase : s.phase = t.phase) (hresp : s.responses = t.responses)
    (hsum : (∃ p, i = .sum p) → s.y = t.y) (hsave : ∀ p, i ≠ .save p) :
    AnswerAlike (fun u v => u.responses = v.responses) (exec i s) (exec i t) := by
  have happend (r : Response) : s.responses ++ [r] = t.responses ++ [r] := by rw [hresp]
  exact exec_alike hphase happend (fun _ _ => happend) (fun _ _ => happend) (fun _ => hsum)
    fun _ ⟨p, hp⟩ => absurd hp (hsave p)

/-- Settles O37: the states compared differ in what the command does not tell. -/
theorem onlySaveReturnsTheKey : Obligations.OnlySaveReturnsTheKey := by
  unfold Obligations.OnlySaveReturnsTheKey
  intro i s s' k y h
  constructor
  · intro hsave
    have halike := exec_responses_alike (s := s) (t := { s with h := k }) rfl rfl (fun _ => rfl)
      hsave
    obtain ⟨t, ht, hresp⟩ := halike.next h
    exact ⟨t, ht, hresp.symm⟩
  · intro hne
    have halike := exec_responses_alike (s := s) (t := { s with h := k, y := y }) rfl rfl
      (fun ⟨p, hp⟩ => absurd hp (hne p).2) fun p => (hne p).1
    obtain ⟨t, ht, hresp⟩ := halike.next h
    exact ⟨t, ht, hresp.symm⟩

/-! ## Errors tell no secret -/

/-- The causes of an error are public: the opcode, the length, the tag bytes and PHASE. -/
theorem ErrorKind.cause_congr {q : Bytes} {ph : Phase} (e : ErrorKind) (hlen : p.length = q.length)
    (htag : op = 0x06 → p.take Config.stateTag.length = q.take Config.stateTag.length) :
    e.Cause op p ph ↔ e.Cause op q ph := by
  cases e with
  | stateFormat =>
    simp only [ErrorKind.Cause, hlen]
    exact and_congr_right fun hop => by rw [htag hop]
  | keySize | blockSize | notReady | operandSize | illegalOp => simp only [ErrorKind.Cause, hlen]

/-- Settles O32: the response shows an error exactly for its causes, which the two commands share.
-/
theorem errorsDependOnPublicDataOnly : Obligations.ErrorsDependOnPublicDataOnly := by
  unfold Obligations.ErrorsDependOnPublicDataOnly
  intro op p q s t s' t' e hlen htag hphase hs ht
  rw [responses_eq_error_iff hs, responses_eq_error_iff ht, firstError_eq_some_iff,
    firstError_eq_some_iff, hphase]
  exact e.cause_congr hlen htag

end Sys2Proof.Machine
end

section
/-! What a command writes and how long its result is (10_state.md section 5, 20_memory.md section
4), and so what every step keeps. -/

namespace Sys2Proof.Machine

variable {op : Byte} {p f : Bytes} {i : Instr} {n : Nat} {s t u : State}

/-! ## Which payloads are answered -/

/-- Every meaning first checks that a frame can express its payload. -/
theorem exec_eq_inFrame (i : Instr) (s : State) : ∃ k, exec i s = inFrame i.payload k := by
  cases i <;> exact ⟨_, rfl⟩

theorem wellFormed_of_exec_next (h : exec i s = .next t) : i.WellFormed := by
  obtain ⟨k, hk⟩ := exec_eq_inFrame i s
  exact (inFrame_next.mp (hk.symm.trans h)).1

/-- Settles O13: past the check of the payload's length a command always answers. -/
theorem execAnswersExactlyWellFormedCommands :
    Obligations.ExecAnswersExactlyWellFormedCommands := by
  unfold Obligations.ExecAnswersExactlyWellFormedCommands
  intro i s
  constructor
  · intro hi
    obtain ⟨t, -, hexec, -⟩ := everyCommandGetsOneResponse i.opcode i.payload s hi
    exact ⟨t, (execCommand_opcode i s).symm.trans hexec⟩
  · intro hi
    obtain ⟨k, hk⟩ := exec_eq_inFrame i s
    exact hk.trans (if_neg hi)

/-! ## What a command writes -/

/-- A command adds one response and leaves the command port and the host's list as they are. -/
theorem execCommand_frame (h : execCommand op p s = .next t) :
    (∃ r, t.responses = s.responses ++ [r]) ∧ t.cmdPort = s.cmdPort ∧ t.script = s.script := by
  rcases execCommand_next.mp h with ⟨i, -, hexec⟩ | ⟨-, -, rfl⟩
  · rcases exec_next_cases hexec with
      ⟨e, rfl⟩ | ⟨-, b, rfl⟩ | ⟨p, -, -, rfl⟩ | ⟨p, k, y, -, rfl⟩ <;> exact ⟨⟨_, rfl⟩, rfl, rfl⟩
  · exact ⟨⟨_, rfl⟩, rfl, rfl⟩

/-- Settles O27: of all that a meaning can do, only a new accumulator lifetime writes PHASE and H,
and only that and the absorbing of blocks write Y. -/
theorem onlyTheListedRegistersAreWritten : Obligations.OnlyTheListedRegistersAreWritten := by
  unfold Obligations.OnlyTheListedRegistersAreWritten
  intro i s t h
  obtain ⟨hresp, hport, hscript⟩ := execCommand_frame ((execCommand_opcode i s).trans h)
  refine ⟨hresp, hport, hscript, fun hne => ?_, fun hne => ?_⟩
  · rcases exec_next_cases h with
      ⟨e, rfl⟩ | ⟨-, b, rfl⟩ | ⟨p, -, -, rfl⟩ | ⟨p, k, y, hi | hi, -⟩
    · exact ⟨rfl, rfl⟩
    · exact ⟨rfl, rfl⟩
    · exact ⟨rfl, rfl⟩
    · exact absurd hi (hne p).1
    · exact absurd hi (hne p).2
  · rcases exec_next_cases h with
      ⟨e, rfl⟩ | ⟨-, b, rfl⟩ | ⟨p, hi, -, -⟩ | ⟨p, k, y, hi | hi, -⟩
    · rfl
    · rfl
    · exact absurd hi (hne p).2.2
    · exact absurd hi (hne p).1
    · exact absurd hi (hne p).2.1

/-- A command outside INIT, UPDATE and RESTORE adds its response and does nothing else. -/
theorem exec_eq_emit_of_not_changesState (h : exec i s = .next t) (hi : changesState i = false) :
    ∃ r, t = s.emit r := by
  rcases exec_next_cases h with
    ⟨e, rfl⟩ | ⟨-, b, rfl⟩ | ⟨p, rfl, -, -⟩ | ⟨p, k, y, rfl | rfl, -⟩
  · exact ⟨_, rfl⟩
  · exact ⟨_, rfl⟩
  all_goals exact absurd hi (by simp [changesState])

/-! ## How long a result is -/

/-- From state s the block answers an error, or OK with a result of n bytes. -/
def AnswersLength (n : Nat) (s t : State) : Prop :=
  ∀ b, t.responses = s.responses ++ [.ok b] → b.length = n

theorem answersLength_of_respond {r : Bytes} (h : respond r u = .next t)
    (hu : u.responses = s.responses) (hr : r.length = n) : AnswersLength n s t := by
  cases h
  intro b hb
  simp only [emit_responses, hu, List.append_cancel_left_eq, List.cons.injEq, Response.ok.injEq,
    and_true] at hb
  exact hb ▸ hr

theorem answersLength_of_raise (e : ErrorKind) : AnswersLength n s (s.emit (.error e)) := by
  intro b hb
  simp at hb

/-- The check may be that of `sized` or the one on blocks. -/
theorem answersLength_of_check {bad : Prop} [Decidable bad] {e : ErrorKind} {k : Result}
    (h : (if bad then raise e s else k) = .next t) (hk : k = .next t → AnswersLength n s t) :
    AnswersLength n s t := by
  split at h
  · cases h
    exact answersLength_of_raise e
  · exact hk h

theorem answersLength_of_whenReady {k : Elem → Elem → Result} (h : whenReady s k = .next t)
    (hk : k s.h s.y = .next t → AnswersLength n s t) : AnswersLength n s t := by
  rcases whenReady_next.mp h with ⟨-, rfl⟩ | ⟨-, hnext⟩
  · exact answersLength_of_raise .notReady
  · exact hk hnext

theorem length_blobOf (h y : Elem) :
    (blobOf Config.stateTag h y).length = Config.tagLen.val + 32 := by
  simp only [blobOf, List.length_append, length_stateTag, Laws.length_encodeElem]

/-- The table of rule R32 holds of what each meaning responds. -/
theorem exec_answersLength (h : exec i s = .next t) : AnswersLength (resultLength i) s t := by
  cases i with
  | init p | blocksize p | status p =>
    exact answersLength_of_check (inFrame_next.mp h).2 fun h => answersLength_of_respond h rfl rfl
  | update p =>
    exact answersLength_of_whenReady (inFrame_next.mp h).2 fun h =>
      answersLength_of_check h fun h => answersLength_of_respond h rfl rfl
  | sum p =>
    exact answersLength_of_whenReady (inFrame_next.mp h).2 fun h =>
      answersLength_of_check h fun h => answersLength_of_respond h rfl (Laws.length_encodeElem _)
  | save p =>
    exact answersLength_of_whenReady (inFrame_next.mp h).2 fun h =>
      answersLength_of_check h fun h => answersLength_of_respond h rfl (length_blobOf _ _)
  | restore p =>
    have hread := (inFrame_next.mp h).2
    split at hread
    · cases hread
      exact answersLength_of_raise .stateFormat
    · exact answersLength_of_respond hread rfl rfl
  | clmul64 p =>
    exact answersLength_of_check (inFrame_next.mp h).2 fun h =>
      answersLength_of_respond h rfl (by simp [clmulResult, Laws.length_bytesOf, resultLength])
  | reduce p | mul p | double p =>
    exact answersLength_of_check (inFrame_next.mp h).2 fun h =>
      answersLength_of_respond h rfl (Laws.length_encodeElem _)

/-- Settles O28: the lengths are those of the table, and a command that only adds its response finds
the registers it found before. -/
theorem resultLengthsAndRepeatableReads : Obligations.ResultLengthsAndRepeatableReads := by
  unfold Obligations.ResultLengthsAndRepeatableReads
  intro i s t h
  refine ⟨exec_answersLength h, fun e _ => rfl, fun hi => ?_⟩
  obtain ⟨r, rfl⟩ := exec_eq_emit_of_not_changesState h hi
  obtain ⟨s', r', hs', hresp, hrepeat⟩ :=
    exec_of_same_registers (wellFormed_of_exec_next h) (s := s) (t := s.emit r) rfl rfl rfl
  obtain rfl : s.emit r = s' := Host.Outcome.next.inj (h.symm.trans hs')
  obtain rfl : r = r' := by simpa using hresp
  exact ⟨r, rfl, hrepeat⟩

/-! ## What every step keeps -/

theorem shaped_error (e : ErrorKind) : (Response.error e).Shaped := List.mem_cons_self

/-- Every length of the table is one of the four that an observer may see. -/
theorem shaped_of_resultLength {b : Bytes} (h : b.length = resultLength i) :
    (Response.ok b).Shaped := by
  rw [Response.Shaped, Response.result, h]
  cases i <;> simp [resultLength]

theorem execCommand_shaped {r : Response} (h : execCommand op p s = .next t)
    (hr : t.responses = s.responses ++ [r]) : r.Shaped := by
  cases r with
  | error e => exact shaped_error e
  | ok b =>
    rcases execCommand_next.mp h with ⟨i, -, hexec⟩ | ⟨-, -, rfl⟩
    · exact shaped_of_resultLength (exec_answersLength hexec b hr)
    · simp at hr

/-- Taking a command off the port, or from the host, gives no response. -/
theorem nextFrame_responses (h : nextFrame s = .frame f u) : u.responses = s.responses := by
  rcases nextFrame_eq_frame.mp h with ⟨-, rfl⟩ | ⟨rest, -, -, rfl⟩ <;> rfl

theorem nextFrame_phase (h : nextFrame s = .frame f u) : u.phase = s.phase := by
  rcases nextFrame_eq_frame.mp h with ⟨-, rfl⟩ | ⟨rest, -, -, rfl⟩ <;> rfl

/-- Taking a command keeps the contract, and a command taken under it is a frame. -/
theorem hostContract_of_nextFrame (h : nextFrame s = .frame f u) (hs : HostContract s) :
    isFrame f = true ∧ HostContract u := by
  obtain ⟨hlen, hport, hscript⟩ := hs
  rcases nextFrame_eq_frame.mp h with ⟨hc, rfl⟩ | ⟨rest, hc, hr, rfl⟩
  · exact ⟨hport f (by simp [hc]), by simp, by simp, hscript⟩
  · exact ⟨hscript f (by simp [hr]), hlen, hport, fun g hg => hscript g (by simp [hr, hg])⟩

/-- Running a command under the contract keeps a safe state safe. -/
theorem execCommand_safe (hs : Safe s) (h : execCommand op p s = .next t) : Safe t := by
  obtain ⟨⟨hlen, hport, hscript⟩, hshaped⟩ := hs
  obtain ⟨⟨r, hr⟩, hc, hsc⟩ := execCommand_frame h
  refine ⟨⟨hc ▸ hlen, hc ▸ hport, hsc ▸ hscript⟩, fun r' hmem => ?_⟩
  rcases List.mem_append.mp (hr ▸ hmem) with hold | hnew
  · exact hshaped r' hold
  · obtain rfl := List.mem_singleton.mp hnew
    exact execCommand_shaped h hr

/-- Settles O38: a step is idle, or takes a command and runs it; both keep a safe state safe. -/
theorem stepKeepsSafe : Obligations.StepKeepsSafe := by
  unfold Obligations.StepKeepsSafe
  intro s t hs h
  rcases step_next.mp h with ⟨-, rfl⟩ | ⟨f, u, op, p, hfetch, -, hexec⟩
  · exact hs
  · obtain ⟨-, hcontract⟩ := hostContract_of_nextFrame hfetch hs.1
    exact execCommand_safe ⟨hcontract, nextFrame_responses hfetch ▸ hs.2⟩ hexec

/-- Settles O40: nothing has been presented or answered after reset. -/
theorem resetIsSafe : Obligations.ResetIsSafe := by
  unfold Obligations.ResetIsSafe
  have hsafe (fs : List Bytes) (hfs : ∀ f ∈ fs, isFrame f = true) :
      Safe { State.reset with script := fs } :=
    ⟨⟨Nat.zero_le 1, List.forall_mem_nil _, hfs⟩, List.forall_mem_nil _⟩
  exact ⟨hsafe [] (List.forall_mem_nil _), hsafe⟩

end Sys2Proof.Machine
end

section
/-! The step: which command it takes, when it answers, and that a run executes the host's commands
in order (20_memory.md sections 1 and 5). -/

namespace Sys2Proof.Machine

variable {op : Byte} {p f : Bytes} {i : Instr} {s t u : State}

/-! ## The command that a step takes -/

theorem step_of_nextFrame (h : nextFrame s = .frame f u) : step s = runFrame f u := by
  rw [step, h]

theorem runFrame_of_parseFrame (h : parseFrame f = some (op, p)) (u : State) :
    runFrame f u = execCommand op p u := by
  rw [runFrame, h]

theorem runFrame_of_decodeFrame_ok (h : decodeFrame f = .ok i) (u : State) :
    runFrame f u = exec i u := by
  obtain ⟨op, p, hparse, hdec⟩ := decodeFrame_ok.mp h
  rw [runFrame_of_parseFrame hparse, execCommand, hdec]

/-- The payload of a frame always fits it, so an illegal opcode in a frame always answers. -/
theorem runFrame_of_decodeFrame_illegal (h : decodeFrame f = .error (.illegalOp op)) (u : State) :
    runFrame f u = .next (u.emit (.error .illegalOp)) := by
  unfold decodeFrame at h
  split at h
  · cases h
  · next op' p hparse =>
    obtain ⟨hp, -⟩ := Laws.parseFrame_eq_some_iff.mp hparse
    rw [runFrame_of_parseFrame hparse, execCommand, h]
    exact inFrame_of_lt _ hp

/-- Settles O9: the frame found is run on the state without it, as what the decoder reads from it.
-/
theorem stepRunsTheDecodedCommand : Obligations.StepRunsTheDecodedCommand := by
  unfold Obligations.StepRunsTheDecodedCommand
  intro s u f hfound
  rw [step_of_nextFrame (nextFrame_eq_frame.mpr hfound)]
  exact ⟨fun op p h => runFrame_of_parseFrame h u, fun i h => runFrame_of_decodeFrame_ok h u,
    fun op h => runFrame_of_decodeFrame_illegal h u⟩

/-! ## When a step answers -/

theorem runFrame_answers (h : isFrame f = true) (u : State) :
    ∃ t r, runFrame f u = .next t ∧ t.responses = u.responses ++ [r] := by
  obtain ⟨⟨op, p⟩, hparse⟩ := Option.isSome_iff_exists.mp h
  rw [runFrame_of_parseFrame hparse]
  exact everyCommandGetsOneResponse op p u (Laws.parseFrame_eq_some_iff.mp hparse).1

/-- A step answers exactly when there is nothing to do or what it takes is a frame. -/
theorem exists_step_next_iff :
    (∃ t, step s = .next t) ↔
      nextFrame s = .idle ∨ ∃ f u, nextFrame s = .frame f u ∧ isFrame f = true := by
  constructor
  · rintro ⟨t, ht⟩
    rcases step_next.mp ht with ⟨hidle, -⟩ | ⟨f, u, op, p, hfetch, hparse, -⟩
    · exact .inl hidle
    · exact .inr ⟨f, u, hfetch, by rw [isFrame, hparse, Option.isSome_some]⟩
  · rintro (hidle | ⟨f, u, hfetch, hframe⟩)
    · exact ⟨s, step_next.mpr (.inl ⟨hidle, rfl⟩)⟩
    · obtain ⟨t, r, ht, -⟩ := runFrame_answers hframe u
      exact ⟨t, (step_of_nextFrame hfetch).trans ht⟩

/-- Settles O10: the frame stands on the port or, with the port empty, first in the host's list. -/
theorem stepAnswersExactlyWithinTheContract : Obligations.StepAnswersExactlyWithinTheContract := by
  unfold Obligations.StepAnswersExactlyWithinTheContract
  intro s
  rw [exists_step_next_iff, nextFrame_eq_idle]
  refine or_congr_right ⟨?_, ?_⟩
  · rintro ⟨f, u, hfetch, hframe⟩
    rcases nextFrame_eq_frame.mp hfetch with ⟨hport, -⟩ | ⟨rest, hport, hscript, -⟩
    · exact .inl ⟨f, hport, hframe⟩
    · exact .inr ⟨f, rest, hport, hscript, hframe⟩
  · rintro (⟨f, hport, hframe⟩ | ⟨f, rest, hport, hscript, hframe⟩)
    · exact ⟨f, _, nextFrame_eq_frame.mpr (.inl ⟨hport, rfl⟩), hframe⟩
    · exact ⟨f, _, nextFrame_eq_frame.mpr (.inr ⟨rest, hport, hscript, rfl⟩), hframe⟩

/-- Settles O39: under the contract there is no overlap, and what a step takes is a frame. -/
theorem safeStatesAlwaysStep : Obligations.SafeStatesAlwaysStep := by
  unfold Obligations.SafeStatesAlwaysStep
  intro s hs
  cases hfetch : nextFrame s with
  | idle =>
    obtain ⟨hport, hscript⟩ := nextFrame_eq_idle.mp hfetch
    exact ⟨s, step_next.mpr (.inl ⟨hfetch, rfl⟩), fun hwork => by simp [hport, hscript] at hwork⟩
  | overlap =>
    obtain ⟨⟨hlen, -, -⟩, -⟩ := hs
    exact absurd (nextFrame_eq_overlap.mp hfetch) (by omega)
  | frame f u =>
    obtain ⟨hframe, -⟩ := hostContract_of_nextFrame hfetch hs.1
    obtain ⟨t, r, ht, hresp⟩ := runFrame_answers hframe u
    exact ⟨t, (step_of_nextFrame hfetch).trans ht, fun _ => ⟨r, nextFrame_responses hfetch ▸ hresp⟩⟩

/-! ## A run of the host's list -/

/-- What the host has still to present plays no part in a command. -/
theorem execCommand_with_script (hp : p.length < Config.payloadBound) (fs : List Bytes)
    (h : execCommand op p s = .next t) :
    execCommand op p { s with script := fs } = .next { t with script := fs } := by
  obtain ⟨s', r, hs', hresp, hother⟩ := execCommand_of_same_registers (op := op) hp (s := s)
    (t := { s with script := fs }) rfl rfl rfl
  obtain rfl : t = s' := Host.Outcome.next.inj (h.symm.trans hs')
  obtain ⟨-, hport, -⟩ := execCommand_frame h
  rw [hother, ← hresp, ← hport]

theorem step_of_script {fs : List Bytes} (hp : p.length < 2 ^ 32) (hport : s.cmdPort = []) :
    step { s with script := frameOf op p :: fs } = execCommand op p { s with script := fs } := by
  have hfetch : nextFrame { s with script := frameOf op p :: fs } =
      .frame (frameOf op p) { s with script := fs } :=
    nextFrame_eq_frame.mpr (.inr ⟨fs, hport, rfl, rfl⟩)
  rw [step_of_nextFrame hfetch, runFrame_of_parseFrame (Laws.parseFrame_eq_some_iff.mpr ⟨hp, rfl⟩)]

theorem core_run_succ_of_step {k : Nat} (h : step s = .next t) :
    core.run (k + 1) s = core.run k t := by
  have hstep : core.step s = .next t := h
  simp only [Host.Core.run, hstep]

/-- Settles O14, by induction on the host's list: each step takes the first command of the list and
runs it, and its outcome is that of the command without the rest of the list. -/
theorem runOfScriptExecutesInOrder : Obligations.RunOfScriptExecutesInOrder := by
  unfold Obligations.RunOfScriptExecutesInOrder
  intro cs
  induction cs with
  | nil =>
    intro s _ _ hscript
    obtain ⟨ph, h, y, c, r, sc⟩ := s
    cases hscript
    rfl
  | cons c cs ih =>
    obtain ⟨op, p⟩ := c
    intro s hcs hport hscript
    have hp : p.length < 2 ^ 32 := hcs (op, p) List.mem_cons_self
    obtain ⟨t, -, ht, -⟩ := everyCommandGetsOneResponse op p s hp
    obtain ⟨-, hport', hscript'⟩ := execCommand_frame ht
    have hstep := (step_of_script hp hport).trans
      (execCommand_with_script hp (cs.map fun c => frameOf c.1 c.2) ht)
    have hrest := ih t (fun c hc => hcs c (List.mem_cons_of_mem _ hc)) (hport'.trans hport)
      (hscript'.trans hscript)
    exact ((core_run_succ_of_step hstep).trans hrest).trans (execCommands_cons ht cs).symm

end Sys2Proof.Machine
end

section
/-! The arcs of PHASE and the state after reset (10_state.md sections 2 and 6,
70_reset_and_hazards.md sections 1 and 2). -/

namespace Sys2Proof.Machine

variable {op : Byte} {p : Bytes} {s t : State}

/-- A command leaves PHASE as it is, or is a successful INIT or RESTORE, which sets it. -/
theorem execCommand_phase (h : execCommand op p s = .next t) :
    t.phase = s.phase ∨ (t.phase = .ready ∧ t.responses = s.responses ++ [.ok []] ∧
      ∃ i, (∃ q, i = .init q ∨ i = .restore q) ∧ decodeCmd op p = .ok i ∧ exec i s = .next t) := by
  rcases execCommand_next.mp h with ⟨i, hdec, hexec⟩ | ⟨-, -, rfl⟩
  · rcases exec_next_cases hexec with
      ⟨e, rfl⟩ | ⟨-, b, rfl⟩ | ⟨q, -, -, rfl⟩ | ⟨q, k, y, hi, rfl⟩
    · exact .inl rfl
    · exact .inl rfl
    · exact .inl rfl
    · exact .inr ⟨rfl, rfl, i, ⟨q, hi⟩, hdec, hexec⟩
  · exact .inl rfl

/-- The same of a step: it takes the frame of a successful INIT or RESTORE, or leaves PHASE. -/
theorem step_phase (h : step s = .next t) :
    t.phase = s.phase ∨ (t.phase = .ready ∧ t.responses = s.responses ++ [.ok []] ∧
      ∃ i u, (∃ q, i = .init q ∨ i = .restore q) ∧ nextFrame s = .frame (encode i) u ∧
        exec i u = .next t) := by
  rcases step_next.mp h with ⟨-, rfl⟩ | ⟨f, u, op, p, hfetch, hparse, hexec⟩
  · exact .inl rfl
  · rw [← nextFrame_phase hfetch, ← nextFrame_responses hfetch]
    refine (execCommand_phase hexec).imp_right ?_
    rintro ⟨hready, hresp, i, hi, hdec, hrun⟩
    obtain ⟨-, rfl⟩ := decodeFrame_eq_ok_iff.mp (decodeFrame_ok.mpr ⟨op, p, hparse, hdec⟩)
    exact ⟨hready, hresp, i, u, hi, hfetch, hrun⟩

/-- Settles O33: presenting a command leaves PHASE, reset clears it, and a step does what its
command does. -/
theorem onlyResetClearsThePhase : Obligations.OnlyResetClearsThePhase := by
  unfold Obligations.OnlyResetClearsThePhase
  intro e s t h
  cases e with
  | present f =>
    cases h
    exact ⟨fun hs ht => by simp [hs] at ht, fun hs ht => by simp [hs] at ht⟩
  | reset =>
    cases h
    exact ⟨fun _ _ => rfl, fun _ ht => by simp at ht⟩
  | run =>
    rcases step_phase h with hkeep | ⟨hready, hresp, i, u, hi, hfetch, hrun⟩
    · exact ⟨fun hs ht => by simp [hkeep, hs] at ht, fun hs ht => by simp [hkeep, hs] at ht⟩
    · exact ⟨fun _ ht => by simp [hready] at ht, fun _ _ => ⟨i, u, hi, rfl, hfetch, hrun, hresp⟩⟩

/-- Settles O34: in UNINIT states look alike whatever H and Y are. -/
theorem resetAbandonsTheCommand : Obligations.ResetAbandonsTheCommand := by
  unfold Obligations.ResetAbandonsTheCommand
  intro s
  refine ⟨rfl, statusByte_of_uninit rfl, rfl, rfl, fun t hphase hport hresp hscript => ?_⟩
  exact ⟨hphase.symm, hport.symm, hresp.symm, hscript.symm, fun hready => by simp at hready⟩

/-- Settles O35: the first error that applies in UNINIT is NotReady for the commands that need
READY, and there is none for the others within their length and tag. -/
theorem resetStateIsUninitialised : Obligations.ResetStateIsUninitialised := by
  unfold Obligations.ResetStateIsUninitialised
  have hanswer (i : Instr) (hi : i.WellFormed) :=
    firstApplicableErrorIsReported i.opcode i.payload State.reset hi
  simp only [execCommand_opcode, firstError_command] at hanswer
  refine ⟨rfl, statusByte_of_uninit rfl, fun i hi hneeds => ?_, fun i hi hneeds hlen htag => ?_⟩
  · exact (hanswer i hi).1 .notReady (if_pos ⟨hneeds, rfl⟩)
  · exact (hanswer i hi).2 (by simp [hneeds, hlen, htag])

end Sys2Proof.Machine
end

section
/-! The carry-less product bit by bit, and the laws of the multiplier unit (00_scope.md section 4,
40_clmul.md sections 1 and 3). -/

namespace Sys2Proof.Laws

variable {m n k i : Nat}

/-! ## The bits of the product -/

/-- A shifted copy of b has the bits of b, higher up. -/
theorem getLsbD_setWidth_shiftLeft (b : BitVec n) (hi : i < m) :
    (b.setWidth m <<< k).getLsbD i = (decide (k ≤ i) && b.getLsbD (i - k)) := by
  rw [BitVec.getLsbD_shiftLeft, BitVec.getLsbD_setWidth]
  by_cases hk : k ≤ i
  · simp [hk, hi, show i - k < m by omega]
  · simp [hk, show i < k by omega]

theorem getLsbD_clmulUpTo_succ (a : BitVec m) (b : BitVec n) (k : Nat) (hi : i < m + n) :
    (clmulUpTo a b (k + 1)).getLsbD i =
      ((clmulUpTo a b k).getLsbD i ^^ (decide (k ≤ i) && (a.getLsbD k && b.getLsbD (i - k)))) := by
  rw [clmulUpTo]
  cases a.getLsbD k
  · simp
  · simp [getLsbD_setWidth_shiftLeft b hi]

/-- Bit i is the exclusive or of the bits that the copies of b contribute. -/
theorem getLsbD_clmulUpTo (a : BitVec m) (b : BitVec n) (k : Nat) (hi : i < m + n) :
    (clmulUpTo a b k).getLsbD i = Nat.fold k
      (fun j _ acc => acc ^^ (decide (j ≤ i) && (a.getLsbD j && b.getLsbD (i - j)))) false := by
  induction k with
  | zero => exact BitVec.getLsbD_zero
  | succ k ih => rw [getLsbD_clmulUpTo_succ a b k hi, ih, Nat.fold_succ]

/-- The copies of b shifted by less than k end below bit n + k - 1. -/
theorem getLsbD_clmulUpTo_of_le (a : BitVec m) (b : BitVec n) (k : Nat) (hk : n + k ≤ i + 1)
    (hi : i < m + n) : (clmulUpTo a b k).getLsbD i = false := by
  induction k with
  | zero => exact BitVec.getLsbD_zero
  | succ k ih =>
    rw [getLsbD_clmulUpTo_succ a b k hi, ih (by omega), BitVec.getLsbD_of_ge b _ (by omega)]
    simp

/-- The product's top stored bit is 0. -/
theorem getLsbD_clmul_top (a : BitVec m) (b : BitVec n) (hm : 1 ≤ m) :
    (clmul a b).getLsbD (m + n - 1) = false :=
  getLsbD_clmulUpTo_of_le a b m (by omega) (by omega)

/-- Settles O41: one copy of b after another contributes its bits, and its part of the product of
the polynomials. -/
theorem clmulIsThePolynomialProduct : Obligations.ClmulIsThePolynomialProduct := by
  unfold Obligations.ClmulIsThePolynomialProduct
  intro m n a b hm _
  exact ⟨fun i hi => getLsbD_clmulUpTo a b m hi, poly_clmul a b, getLsbD_clmul_top a b hm⟩

/-! ## The multiplier unit -/

/-- Settles O42: the words joined are the product, and bit 63 of the high word is its top bit. -/
theorem ctmulSplitsTheProduct : Obligations.CtmulSplitsTheProduct := by
  unfold Obligations.CtmulSplitsTheProduct
  intro x y
  refine ⟨ctmul_append x y, ?_⟩
  have htop : (clmul x y).getLsbD 127 = false := getLsbD_clmul_top x y (by decide)
  simpa [ctmul, BitVec.getLsbD_extractLsb'] using htop

/-- The two words are determined by the product of the polynomials. -/
theorem ctmul_eq_of_poly {x y hi lo : Word64}
    (h : poly hi * Polynomial.X ^ 64 + poly lo = poly x * poly y) : ctmul x y = (hi, lo) := by
  have hproduct : clmul x y = hi ++ lo := poly_inj (by rw [poly_clmul, poly_append, h])
  simp only [ctmul, hproduct, BitVec.extractLsb'_append_eq_left, BitVec.extractLsb'_append_eq_right]

theorem clmul_comm (a b : BitVec n) : clmul a b = clmul b a :=
  poly_inj (by rw [poly_clmul, poly_clmul, mul_comm])

theorem ctmul_comm (x y : Word64) : ctmul x y = ctmul y x := by
  rw [ctmul, clmul_comm, ctmul]

theorem ctmul_zero (x : Word64) : ctmul x 0 = (0, 0) :=
  ctmul_eq_of_poly (by simp only [poly_zero]; ring)

theorem ctmul_one (x : Word64) : ctmul x 1 = (0, x) :=
  ctmul_eq_of_poly (by
    have hone : poly (1 : Word64) = 1 := poly_one (by decide)
    rw [poly_zero, hone]
    ring)

theorem ctmul_xor_left (x x' y : Word64) : ctmul (x ^^^ x') y =
    ((ctmul x y).1 ^^^ (ctmul x' y).1, (ctmul x y).2 ^^^ (ctmul x' y).2) :=
  ctmul_eq_of_poly (by
    simp only [poly_xor]
    linear_combination poly_ctmul x y + poly_ctmul x' y)

/-- A power of two shifts across the two words. -/
theorem ctmul_one_shiftLeft (x : Word64) (hk : k ≤ 63) :
    ctmul x (1#64 <<< k) = (x >>> (64 - k), x <<< k) :=
  ctmul_eq_of_poly (by
    have hshift := poly_shifts x (k := 64 - k) (by omega)
    rw [show 64 - (64 - k) = k by omega] at hshift
    rw [poly_bit (by omega), hshift])

/-- Over GF(2) a square has the coefficients of its root, spread to the even places. -/
theorem coeff_poly_clmul_self (a : BitVec n) (i : Nat) :
    (poly (clmul a a)).coeff i = if 2 ∣ i then (poly a).coeff (i / 2) else 0 := by
  rw [poly_clmul, ← pow_two, ← ZMod.expand_card, Polynomial.coeff_expand (by decide)]

theorem getLsbD_eq_of_coeff {a : BitVec n} {b : BitVec m} {j : Nat}
    (h : (poly a).coeff i = (poly b).coeff j) : a.getLsbD i = b.getLsbD j := by
  rw [coeff_poly, coeff_poly] at h
  cases ha : a.getLsbD i <;> cases hb : b.getLsbD j <;> simp_all

theorem getLsbD_clmul_self_even (a : BitVec n) (j : Nat) :
    (clmul a a).getLsbD (2 * j) = a.getLsbD j :=
  getLsbD_eq_of_coeff (by
    rw [coeff_poly_clmul_self, if_pos ⟨j, rfl⟩, Nat.mul_div_cancel_left j two_pos])

theorem getLsbD_clmul_self_odd (a : BitVec n) (j : Nat) :
    (clmul a a).getLsbD (2 * j + 1) = false := by
  have hcoeff := coeff_poly_clmul_self a (2 * j + 1)
  rw [if_neg (by omega), coeff_poly] at hcoeff
  simpa using hcoeff

/-- Settles O43: each law is one of the product of the polynomials. -/
theorem ctmulLaws : Obligations.CtmulLaws := by
  unfold Obligations.CtmulLaws
  exact ⟨ctmul_comm, fun x => ⟨ctmul_zero x, ctmul_one x⟩, ctmul_xor_left,
    fun x k _ hk => ctmul_one_shiftLeft x hk,
    fun x j _ => ⟨getLsbD_clmul_self_even x j, getLsbD_clmul_self_odd x j⟩⟩

/-- Settles O44: both arrangements have the product's polynomial. -/
theorem wordProductsGiveTheWideProduct : Obligations.WordProductsGiveTheWideProduct := by
  unfold Obligations.WordProductsGiveTheWideProduct
  exact fun a b => ⟨clmulFour_eq_clmul a b, clmulThree_eq_clmul a b⟩

end Sys2Proof.Laws
end

section
/-! The residue ring modulo p (00_scope.md rules R9 to R11). A bit vector stands for a residue, an
element for exactly one, and x is invertible: each law of the units is an identity in that ring. -/

namespace Sys2Proof.Laws

variable {n w k : Nat}

/-! ## Residues -/

/-- The ring of polynomials modulo p. -/
abbrev Residue := AdjoinRoot (poly P129)

/-- The residue that a bit vector stands for. -/
noncomputable def residue (a : BitVec n) : Residue := AdjoinRoot.mk (poly P129) (poly a)

/-- The residue of x. -/
noncomputable def xi : Residue := AdjoinRoot.root (poly P129)

theorem modEqP_iff {f g : Polynomial (ZMod 2)} :
    ModEqP f g ↔ AdjoinRoot.mk (poly P129) f = AdjoinRoot.mk (poly P129) g :=
  AdjoinRoot.mk_eq_mk.symm

theorem mk_X_pow (k : Nat) : AdjoinRoot.mk (poly P129) (Polynomial.X ^ k) = xi ^ k := by
  rw [map_pow, AdjoinRoot.mk_X, xi]

/-- An element is its own residue. -/
theorem residue_inj {a b : Elem} (h : residue a = residue b) : a = b :=
  eq_of_modEqP (modEqP_iff.mpr h)

theorem residue_xor (a b : BitVec n) : residue (a ^^^ b) = residue a + residue b := by
  rw [residue, poly_xor, map_add, residue, residue]

theorem residue_zero : residue (0 : BitVec n) = 0 := by rw [residue, poly_zero, map_zero]

theorem residue_one (hn : 0 < n) : residue 1#n = 1 := by rw [residue, poly_one hn, map_one]

theorem residue_clmul {m : Nat} (a : BitVec m) (b : BitVec n) :
    residue (clmul a b) = residue a * residue b := by
  rw [residue, poly_clmul, map_mul, residue, residue]

theorem residue_setWidth (a : BitVec n) (h : n ≤ w) : residue (a.setWidth w) = residue a := by
  rw [residue, poly_setWidth a h, residue]

theorem residue_shiftLeft (a : BitVec n) (h : n + k ≤ w) :
    residue (a.setWidth w <<< k) = residue a * xi ^ k := by
  rw [residue, poly_shiftLeft a k h, map_mul, mk_X_pow, residue]

theorem residue_P129 : residue P129 = 0 := AdjoinRoot.mk_self

/-- RPOLY is x^128 modulo p (rule R9). -/
theorem residue_RPOLY : residue RPOLY = xi ^ 128 := by
  have h2 : (2 : Polynomial (ZMod 2)) = 0 := CharTwo.two_eq_zero
  have hmod : ModEqP (poly RPOLY) (Polynomial.X ^ 128) :=
    ⟨1, by linear_combination poly_RPOLY - Polynomial.X ^ 128 * h2⟩
  rw [residue, modEqP_iff.mp hmod, mk_X_pow]

/-- x is invertible modulo p. -/
theorem isUnit_xi : IsUnit xi := by
  obtain ⟨u, v, huv⟩ := coprime_P129_X
  have hmk := congrArg (AdjoinRoot.mk (poly P129)) huv
  rw [map_add, map_mul, map_mul, AdjoinRoot.mk_self, mul_zero, zero_add, AdjoinRoot.mk_X,
    map_one] at hmk
  exact IsUnit.of_mul_eq_one_right _ hmk

/-- Elements that agree times a power of x are equal. -/
theorem eq_of_residue_mul_xi_pow {a b : Elem} (k : Nat)
    (h : residue a * xi ^ k = residue b * xi ^ k) : a = b :=
  residue_inj ((isUnit_xi.pow k).mul_right_cancel h)

/-! ## The units -/

theorem residue_redc (p : Wide) : residue (redc p) * xi ^ 128 = residue p := by
  rw [residue, ← mk_X_pow, ← map_mul, modEqP_iff.mp (poly_redc p), residue]

/-- `redc` gives the one element with this product. -/
theorem redc_eq_of_residue {p : Wide} {r : Elem} (h : residue r * xi ^ 128 = residue p) :
    redc p = r :=
  eq_of_residue_mul_xi_pow 128 ((residue_redc p).trans h.symm)

theorem residue_mul (a b : Elem) : residue (mul a b) * xi ^ 128 = residue a * residue b := by
  rw [mul, residue_redc, residue_clmul]

/-- `mul` gives the one element with this product. -/
theorem mul_eq_of_residue {a b r : Elem} (h : residue r * xi ^ 128 = residue a * residue b) :
    mul a b = r :=
  redc_eq_of_residue (h.trans (residue_clmul a b).symm)

theorem residue_dbl (a : Elem) : residue (dbl a) = xi * residue a := by
  rw [residue, modEqP_iff.mp (poly_dbl a), map_mul, AdjoinRoot.mk_X, xi, residue]

/-- Adding the bit 2^127 to a value shifted right is an exclusive or. -/
theorem ushiftRight_one_or (a : Elem) :
    (a >>> 1) ||| (1#128 <<< 127) = (a >>> 1) ^^^ (1#128 <<< 127) := by
  apply BitVec.eq_of_getLsbD_eq
  intro i hi
  rw [BitVec.getLsbD_or, BitVec.getLsbD_xor]
  by_cases h : i = 127
  · simp [h]
  · have hbit : (1#128 <<< 127).getLsbD i = false := by
      rw [BitVec.getLsbD_shiftLeft]
      simp [show i < 127 by omega]
    rw [hbit, Bool.or_false, Bool.xor_false]

/-- Halving an odd element adds p, the bit of x^128 included, and so divides by x. -/
theorem poly_half (a : Elem) : ModEqP (Polynomial.X * poly (half a)) (poly a) := by
  unfold half
  split
  · next h =>
    have hR : RPOLY.getLsbD 0 = true := by decide +kernel
    have heven : (a ^^^ RPOLY).getLsbD 0 = false := by rw [BitVec.getLsbD_xor, h, hR]; rfl
    rw [ushiftRight_one_or, poly_xor, mul_add, poly_shiftRight _ heven, poly_xor,
      poly_bit (by omega)]
    refine ⟨1, ?_⟩
    linear_combination poly_RPOLY
  · next h =>
    rw [poly_shiftRight a (by simpa using h)]
    exact modEqP_refl _

theorem residue_half (a : Elem) : residue (half a) * xi = residue a := by
  have h := modEqP_iff.mp (poly_half a)
  rwa [map_mul, AdjoinRoot.mk_X, mul_comm] at h

theorem residue_halfTimes (k : Nat) (a : Elem) : residue (halfTimes k a) * xi ^ k = residue a := by
  induction k with
  | zero => rw [halfTimes, pow_zero, mul_one]
  | succ k ih => rw [halfTimes, pow_succ', ← mul_assoc, residue_half, ih]

/-! ## The plain residue (rule R11) -/

/-- Cutting off zero bits, or adding some, keeps the polynomial. -/
theorem poly_setWidth_of_getLsbD {m : Nat} {a : BitVec n} (h : ∀ i, m ≤ i → a.getLsbD i = false) :
    poly (a.setWidth m) = poly a := by
  ext i
  rw [coeff_poly, coeff_poly, BitVec.getLsbD_setWidth]
  by_cases hi : i < m
  · simp [hi]
  · simp [h i (by omega)]

/-- One round of the loop: the multiple of p that it adds clears the bit 128 + k. -/
def modPRound (k : Nat) (v : BitVec w) : BitVec w :=
  if v.getLsbD (128 + k) then v ^^^ (P129.setWidth w <<< k) else v

theorem modPFrom_succ (k : Nat) (v : BitVec w) : modPFrom (k + 1) v = modPFrom k (modPRound k v) :=
  rfl

theorem residue_modPRound (k : Nat) (v : BitVec w) : residue (modPRound k v) = residue v := by
  unfold modPRound
  split
  · next h =>
    have hw : 128 + k < w := BitVec.lt_of_getLsbD h
    rw [residue_xor, residue_shiftLeft P129 (by omega), residue_P129, zero_mul, add_zero]
  · rfl

theorem getLsbD_P129_of_le {i : Nat} (hi : 128 ≤ i) : P129.getLsbD i = decide (i = 128) := by
  by_cases h : i = 128
  · subst h
    decide +kernel
  · rw [BitVec.getLsbD_of_ge P129 i (by omega)]
    simp [h]

/-- After the round the bits from 128 + k on are zero, when those above were. -/
theorem getLsbD_modPRound {v : BitVec w} (h : ∀ i, 128 + (k + 1) ≤ i → v.getLsbD i = false)
    (i : Nat) (hi : 128 + k ≤ i) : (modPRound k v).getLsbD i = false := by
  unfold modPRound
  by_cases htop : v.getLsbD (128 + k) = true
  · have hw : 128 + k < w := BitVec.lt_of_getLsbD htop
    rw [if_pos htop, BitVec.getLsbD_xor]
    by_cases hiw : i < w
    · rw [getLsbD_setWidth_shiftLeft P129 hiw, getLsbD_P129_of_le (by omega)]
      by_cases hik : i = 128 + k
      · subst hik
        simp [htop]
      · simp [h i (by omega), show i - k ≠ 128 by omega]
    · rw [BitVec.getLsbD_of_ge v i (by omega), BitVec.getLsbD_of_ge _ i (by omega)]
      rfl
  · rw [if_neg htop]
    by_cases hik : i = 128 + k
    · subst hik
      simpa using htop
    · exact h i (by omega)

theorem residue_modPFrom (k : Nat) (v : BitVec w) : residue (modPFrom k v) = residue v := by
  induction k generalizing v with
  | zero => rfl
  | succ k ih => rw [modPFrom_succ, ih, residue_modPRound]

theorem getLsbD_modPFrom (k : Nat) {v : BitVec w} (h : ∀ i, 128 + k ≤ i → v.getLsbD i = false)
    (i : Nat) (hi : 128 ≤ i) : (modPFrom k v).getLsbD i = false := by
  induction k generalizing v with
  | zero => exact h i hi
  | succ k ih => exact ih (getLsbD_modPRound h)

theorem residue_modP (v : BitVec w) : residue (modP v) = residue v := by
  have hhigh := getLsbD_modPFrom (w - 128) (v := v) fun i hi =>
    BitVec.getLsbD_of_ge v i (by omega)
  rw [modP, residue, poly_setWidth_of_getLsbD hhigh]
  exact residue_modPFrom (w - 128) v

/-- Settles O45: each round of the loop adds a multiple of p and clears one bit, and no other
element stands for the residue that is left. -/
theorem modPIsTheResidue : Obligations.ModPIsTheResidue := by
  unfold Obligations.ModPIsTheResidue
  intro w v
  exact ⟨modEqP_iff.mpr (residue_modP v),
    fun r hr => residue_inj ((modEqP_iff.mp hr).trans (residue_modP v).symm)⟩

end Sys2Proof.Laws
end

section
/-! The laws of the reduction, of the multiplier and of the doubler (41_reduce.md section 1,
42_field_ops.md sections 1 and 2), read off in the residue ring. -/

namespace Sys2Proof.Laws

/-! ## The laws of `redc` -/

theorem redc_xor (p q : Wide) : redc (p ^^^ q) = redc p ^^^ redc q :=
  redc_eq_of_residue (by rw [residue_xor, residue_xor, add_mul, residue_redc, residue_redc])

theorem redc_setWidth_shiftLeft (a : Elem) : redc (a.setWidth 256 <<< 128) = a :=
  redc_eq_of_residue (residue_shiftLeft a (by decide)).symm

/-- A 256-bit value is its high half shifted up and its low half. -/
theorem halves_xor (p : Wide) :
    ((p.extractLsb' 128 128).setWidth 256 <<< 128) ^^^ (p.extractLsb' 0 128).setWidth 256 = p := by
  apply BitVec.eq_of_getLsbD_eq
  intro i hi
  rw [BitVec.getLsbD_xor, getLsbD_setWidth_shiftLeft _ hi, BitVec.getLsbD_setWidth,
    BitVec.getLsbD_extractLsb', BitVec.getLsbD_extractLsb']
  by_cases h : i < 128
  · simp [h, hi, show ¬ 128 ≤ i by omega]
  · simp [h, show 128 ≤ i by omega, show i - 128 < 128 by omega,
      show 128 + (i - 128) = i by omega]

theorem redc_split (p : Wide) :
    redc p = p.extractLsb' 128 128 ^^^ redc ((p.extractLsb' 0 128).setWidth 256) := by
  conv_lhs => rw [← halves_xor p]
  rw [redc_xor, redc_setWidth_shiftLeft]

theorem modP_redc_shiftLeft (p : Wide) : modP ((redc p).setWidth 256 <<< 128) = modP p :=
  residue_inj (by
    rw [residue_modP, residue_modP, residue_shiftLeft _ (by decide), residue_redc])

theorem redc_setWidth (a : Elem) : redc (a.setWidth 256) = halfTimes 128 a :=
  redc_eq_of_residue (by rw [residue_halfTimes, residue_setWidth _ (by decide)])

theorem redc_one : redc 1#256 = XM128 := by decide +kernel

theorem redc_RPOLY : redc (RPOLY.setWidth 256) = 1 :=
  redc_eq_of_residue (by
    have hone : residue (1 : Elem) = 1 := residue_one (by decide)
    rw [hone, one_mul, residue_setWidth _ (by decide), residue_RPOLY])

theorem redc_P129 : redc (P129.setWidth 256) = 0 :=
  redc_eq_of_residue (by
    rw [residue_zero, zero_mul, residue_setWidth _ (by decide), residue_P129])

/-- Settles O48: times x^128 each law is an identity of residues. -/
theorem redcLaws : Obligations.RedcLaws := by
  unfold Obligations.RedcLaws
  exact ⟨redc_xor, redc_split, modP_redc_shiftLeft, redc_setWidth_shiftLeft, redc_setWidth,
    redc_one, redc_RPOLY, redc_P129⟩

/-! ## The laws of `mul` -/

theorem mul_comm_elem (a b : Elem) : mul a b = mul b a := by rw [mul, clmul_comm, mul]

theorem mul_assoc_elem (a b c : Elem) : mul (mul a b) c = mul a (mul b c) := by
  refine mul_eq_of_residue ((isUnit_xi.pow 128).mul_right_cancel ?_)
  linear_combination xi ^ 128 * residue_mul a (mul b c) + residue a * residue_mul b c -
    residue c * residue_mul a b

theorem mul_xor_left (a b c : Elem) : mul (a ^^^ b) c = mul a c ^^^ mul b c :=
  mul_eq_of_residue (by
    rw [residue_xor, residue_xor, add_mul, residue_mul, residue_mul, add_mul])

theorem mul_zero_elem (a : Elem) : mul a 0 = 0 :=
  mul_eq_of_residue (by rw [residue_zero, zero_mul, mul_zero])

theorem mul_RPOLY (a : Elem) : mul a RPOLY = a :=
  mul_eq_of_residue (by rw [residue_RPOLY])

/-- XM128 is the inverse of x^128. -/
theorem residue_XM128 : residue XM128 * xi ^ 128 = 1 := by
  rw [← redc_one, residue_redc, residue_one (by decide)]

theorem mul_eq_modP_clmul (a b : Elem) : mul a b = modP (clmul (modP (clmul a b)) XM128) :=
  mul_eq_of_residue (by
    rw [residue_modP, residue_clmul, residue_modP, residue_clmul, mul_assoc, residue_XM128,
      mul_one])

theorem mul_dbl_left (a b : Elem) : mul (dbl a) b = dbl (mul a b) :=
  mul_eq_of_residue (by rw [residue_dbl, residue_dbl, mul_assoc, residue_mul, mul_assoc])

/-- X129 is the double of the identity. -/
theorem dbl_RPOLY : dbl RPOLY = X129 := by decide +kernel

theorem dbl_eq_mul_X129 (a : Elem) : dbl a = mul a X129 := by
  rw [← dbl_RPOLY, mul_comm_elem, mul_dbl_left, mul_comm_elem, mul_RPOLY]

/-- Settles O50: the same for the product. -/
theorem mulLaws : Obligations.MulLaws := by
  unfold Obligations.MulLaws
  exact ⟨mul_comm_elem, mul_assoc_elem, mul_xor_left, fun a => ⟨mul_zero_elem a, mul_RPOLY a⟩,
    mul_eq_modP_clmul, fun a b => ⟨mul_dbl_left a b, dbl_eq_mul_X129 a⟩⟩

/-! ## The laws of `dbl` -/

/-- The mask is all ones or all zeros. -/
theorem dblMasked_eq_dbl (a : Elem) : dblMasked a = dbl a := by
  unfold dblMasked dbl
  cases carryOut a <;> rfl

theorem dbl_one_shiftLeft {k : Nat} (hk : k < 127) : dbl (1#128 <<< k) = 1#128 <<< (k + 1) := by
  have hcarry : carryOut (1#128 <<< k) = false := by
    simp [carryOut]
    omega
  simp [dbl, hcarry, BitVec.shiftLeft_add]

/-- Up to 2^127 doubling 1 moves its one bit. -/
theorem dblTimes_one {k : Nat} (hk : k ≤ 127) : dblTimes k 1 = 1#128 <<< k := by
  induction k with
  | zero => rfl
  | succ k ih => rw [dblTimes, ih (by omega), dbl_one_shiftLeft (by omega)]

/-- One doubling more shifts the bit out and leaves RPOLY. -/
theorem dblTimes_128_one : dblTimes 128 1 = RPOLY := by
  rw [dblTimes, dblTimes_one (by decide)]
  decide +kernel

theorem dbl_xor (a b : Elem) : dbl (a ^^^ b) = dbl a ^^^ dbl b :=
  residue_inj (by rw [residue_xor, residue_dbl, residue_dbl, residue_dbl, residue_xor, mul_add])

theorem half_dbl (a : Elem) : half (dbl a) = a :=
  eq_of_residue_mul_xi_pow 1 (by rw [pow_one, residue_half, residue_dbl, mul_comm])

theorem dbl_half (a : Elem) : dbl (half a) = a :=
  residue_inj (by rw [residue_dbl, mul_comm, residue_half])

/-- Settles O53: doubling multiplies the residue by x and halving divides it by x. -/
theorem doublingSequenceAndInverse : Obligations.DoublingSequenceAndInverse := by
  unfold Obligations.DoublingSequenceAndInverse
  exact ⟨dblMasked_eq_dbl, fun k => dblTimes_one, dblTimes_128_one, dbl_xor,
    fun a => ⟨half_dbl a, dbl_half a⟩⟩

end Sys2Proof.Laws
end

section
/-! The serializer and whole sequences of commands (42_field_ops.md section 3, 30_encoding.md
section 4, 43_accumulator.md section 3, 44_state_serialization.md section 3). -/

namespace Sys2Proof.Laws

variable {b c : Bytes}

/-! ## The serializer -/

theorem decodeElem_encodeElem (e : Elem) : decodeElem (encodeElem e) = e := le_bytesOf rfl e

theorem encodeElem_decodeElem (hb : b.length = 16) : encodeElem (decodeElem b) = b :=
  bytesOf_le b (by omega)

theorem encodeElem_inj {d e : Elem} (h : encodeElem d = encodeElem e) : d = e := by
  rw [← decodeElem_encodeElem d, h, decodeElem_encodeElem]

theorem getD_zipWith_xor (h : b.length = c.length) (k : Nat) :
    (List.zipWith (· ^^^ ·) b c).getD k 0 = b.getD k 0 ^^^ c.getD k 0 := by
  simp only [List.getD_eq_getElem?_getD, List.getElem?_zipWith]
  by_cases hk : k < b.length
  · simp [hk, h ▸ hk]
  · simp [hk, h ▸ hk]

/-- Exclusive or may be done on bytes. -/
theorem decodeElem_zipWith_xor (h : b.length = c.length) :
    decodeElem (List.zipWith (· ^^^ ·) b c) = decodeElem b ^^^ decodeElem c := by
  apply BitVec.eq_of_getLsbD_eq
  intro i hi
  rw [BitVec.getLsbD_xor, decodeElem, decodeElem, decodeElem, getLsbD_le, getLsbD_le, getLsbD_le,
    getD_zipWith_xor h, BitVec.getLsbD_xor, Bool.and_xor_distrib_left]

theorem length_zipWith_xor {n : Nat} (hb : b.length = n) (hc : c.length = n) :
    (List.zipWith (· ^^^ ·) b c).length = n := by
  rw [List.length_zipWith, hb, hc, min_self]

/-- Settles O55: reading and writing undo each other, and each bit of a value is a bit of one byte.
-/
theorem serializerIsABijection : Obligations.SerializerIsABijection := by
  unfold Obligations.SerializerIsABijection
  exact ⟨fun b hb => encodeElem_decodeElem hb, decodeElem_encodeElem,
    fun b c hb hc => (decodeElem_zipWith_xor (hb.trans hc.symm)).symm, by decide,
    fun d e => encodeElem_inj⟩

/-! ## Blocks -/

/-- Blocks of a payload joined to another are those of the one and then those of the other. -/
theorem blocksOf_append (b c : Bytes) (hb : b.length % 16 = 0) :
    blocksOf (b ++ c) = blocksOf b ++ blocksOf c := by
  obtain ⟨k, hk⟩ : ∃ k, b.length = 16 * k := ⟨b.length / 16, by omega⟩
  have hcount : (b ++ c).length / 16 = k + c.length / 16 := by
    rw [List.length_append, hk]
    omega
  rw [blocksOf, hcount, List.range_add, List.map_append, List.map_map,
    Machine.blocksOf_of_length hk, blocksOf]
  congr 1
  · refine List.map_congr_left fun i hi => ?_
    have hend : 16 * i + 16 ≤ b.length := by
      have hik := List.mem_range.mp hi
      omega
    rw [blockAt, blockAt, slice, slice, List.take_append_of_le_length hend]
  · refine List.map_congr_left fun i _ => ?_
    have hstart : 16 * (k + i) = b.length + 16 * i := by omega
    have hend : 16 * (k + i) + 16 = b.length + (16 * i + 16) := by omega
    rw [Function.comp_apply, blockAt, blockAt, slice, slice, hend, hstart,
      List.take_length_add_append, List.drop_length_add_append]

/-- A 16-byte payload is one block. -/
theorem blocksOf_of_length_sixteen (hb : b.length = 16) : blocksOf b = [le 128 b] := by
  have hblock : slice b 0 16 = b := by rw [slice, ← hb, List.take_length, List.drop_zero]
  rw [Machine.blocksOf_of_length (k := 1) hb, List.range_one, List.map_singleton, blockAt]
  exact congrArg (fun b => [le 128 b]) hblock

theorem blocksOf_flatten {xs : List Bytes} (hxs : ∀ x ∈ xs, x.length = 16) :
    blocksOf xs.flatten = xs.map (le 128) := by
  induction xs with
  | nil => rfl
  | cons x xs ih =>
    have hx : x.length = 16 := hxs x List.mem_cons_self
    rw [List.flatten_cons, blocksOf_append _ _ (by omega), blocksOf_of_length_sixteen hx,
      ih fun y hy => hxs y (List.mem_cons_of_mem _ hy)]
    rfl

theorem absorb_cons (h y x : Elem) (xs : List Elem) :
    absorb h y (x :: xs) = absorb h (mul (y ^^^ x) h) xs := rfl

theorem absorb_append (h y : Elem) (xs ys : List Elem) :
    absorb h y (xs ++ ys) = absorb h (absorb h y xs) ys := List.foldl_append

/-! ## The closed form of the digest -/

/-- What stands in the digest is multiplied by the key once per block. -/
theorem mul_mul_mulPow (h z : Elem) (k : Nat) :
    mul (mul z h) (mulPow h k) = mul z (mulPow h (k + 1)) := by
  rw [mulPow, mul_assoc_elem, mul_comm_elem h]

/-- Absorbing blocks into y is the closed form with y added to the first of them. -/
theorem absorb_cons_eq_closedForm (h y x : Elem) (xs : List Elem) :
    absorb h y (x :: xs) = Machine.closedForm h ((y ^^^ x) :: xs) := by
  induction xs generalizing x y with
  | nil => simp [absorb, Machine.closedForm, add, mulPow]
  | cons x' xs ih =>
    rw [absorb_cons, ih]
    simp only [Machine.closedForm, add, List.length_cons, mul_xor_left, mul_mul_mulPow,
      BitVec.xor_assoc]

theorem absorb_zero_eq_closedForm (h : Elem) (xs : List Elem) :
    absorb h 0 xs = Machine.closedForm h xs := by
  cases xs with
  | nil => rfl
  | cons x xs =>
    have hx : 0 ^^^ x = x := BitVec.zero_xor
    rw [absorb_cons_eq_closedForm, hx]

end Sys2Proof.Laws

namespace Sys2Proof.Machine

variable {p : Bytes} {s t : State}

/-- Settles O26: the bytewise exclusive or reads as the sum of the two elements, which DOUBLE
doubles. -/
theorem xorDoubleDoublesTheSum : Obligations.XorDoubleDoublesTheSum := by
  unfold Obligations.XorDoubleDoublesTheSum
  intro a b s ha hb
  have hlen := Laws.length_zipWith_xor ha hb
  obtain ⟨-, -, hdouble⟩ := doubleReturnsTheDouble (List.zipWith (· ^^^ ·) a b) s (by omega)
  have hsum : le 128 (List.zipWith (· ^^^ ·) a b) = le 128 a ^^^ le 128 b :=
    Laws.decodeElem_zipWith_xor (ha.trans hb.symm)
  rw [hsum] at hdouble
  exact execAll_cons (hdouble hlen) []

/-! ## UPDATE in sequence -/

/-- A READY UPDATE of a positive multiple of 16 bytes absorbs its blocks. -/
theorem exec_update_of_ready (hs : s.phase = .ready) (hp : p.length < Config.payloadBound)
    (hpos : 1 ≤ p.length) (hblocks : p.length % 16 = 0) :
    exec (.update p) s = .next ((s.setY (absorb s.h s.y (blocksOf p))).emit (.ok [])) := by
  have hgood : ¬ (p.length = 0 ∨ p.length % 16 ≠ 0) := by omega
  exact (inFrame_whenReady_of_ready _ hp hs).trans (if_neg hgood)

/-- The outcome of absorbing the blocks of a message with k responses OK. -/
def State.absorbed (k : Nat) (m : Bytes) (s : State) : State :=
  { s with y := absorb s.h s.y (blocksOf m), responses := s.responses ++ List.replicate k (.ok []) }

/-- One UPDATE more absorbs the rest of the message. -/
theorem absorbed_absorbed (k : Nat) (hp : p.length % 16 = 0) (m : Bytes) (s : State) :
    State.absorbed k m ((s.setY (absorb s.h s.y (blocksOf p))).emit (.ok [])) =
      State.absorbed (k + 1) (p ++ m) s := by
  simp [State.absorbed, Laws.blocksOf_append p m hp, Laws.absorb_append, List.replicate_succ]

/-- One UPDATE a chunk absorbs the message that the chunks are cut from. -/
theorem execAll_updateEach {cs : List Bytes} (hs : s.phase = .ready)
    (hcs : ∀ c ∈ cs, 1 ≤ c.length ∧ c.length % 16 = 0)
    (hbound : cs.flatten.length < Config.payloadBound) :
    execAll (updateEach cs) s = .next (State.absorbed cs.length cs.flatten s) := by
  induction cs generalizing s with
  | nil =>
    show Host.Outcome.next s = .next { s with y := s.y, responses := s.responses ++ [] }
    rw [List.append_nil]
  | cons c cs ih =>
    obtain ⟨hpos, hblocks⟩ := hcs c List.mem_cons_self
    rw [List.flatten_cons, List.length_append] at hbound
    have hfirst := exec_update_of_ready hs (lt_of_le_of_lt (Nat.le_add_right _ _) hbound) hpos
      hblocks
    have hrest := ih (s := (s.setY (absorb s.h s.y (blocksOf c))).emit (.ok [])) hs
      (fun c' hc' => hcs c' (List.mem_cons_of_mem _ hc'))
      (lt_of_le_of_lt (Nat.le_add_left _ _) hbound)
    rw [absorbed_absorbed cs.length hblocks] at hrest
    exact (execAll_cons hfirst _).trans hrest

theorem length_flatten_mod {cs : List Bytes} (hcs : ∀ c ∈ cs, 1 ≤ c.length ∧ c.length % 16 = 0) :
    cs.flatten.length % 16 = 0 := by
  induction cs with
  | nil => rfl
  | cons c cs ih =>
    have hc := (hcs c List.mem_cons_self).2
    have hrest := ih fun c' hc' => hcs c' (List.mem_cons_of_mem _ hc')
    rw [List.flatten_cons, List.length_append]
    omega

/-- Settles O56: either way the blocks of the whole message are absorbed in order. -/
theorem chunkingDoesNotMatter : Obligations.ChunkingDoesNotMatter := by
  unfold Obligations.ChunkingDoesNotMatter
  intro cs s hs hne hcs hbound
  have hpos : 1 ≤ cs.flatten.length := by
    obtain ⟨c, hc⟩ := List.exists_mem_of_ne_nil cs hne
    exact (hcs c hc).1.trans (List.sublist_flatten_of_mem hc).length_le
  exact ⟨_, _, execAll_updateEach hs hcs hbound,
    exec_update_of_ready hs hbound hpos (length_flatten_mod hcs), rfl, rfl, rfl, rfl, rfl⟩

/-! ## POLYVAL -/

theorem length_flatten_of_blocks {xs : List Bytes} (hxs : ∀ x ∈ xs, x.length = 16) :
    xs.flatten.length = 16 * xs.length := by
  rw [List.length_flatten, List.map_congr_left hxs, List.map_const', List.sum_replicate,
    smul_eq_mul, mul_comm]

/-- The middle of POLYVAL, UPDATE of all blocks or nothing, absorbs the blocks. -/
theorem execAll_update_blocks {xs : List Bytes} (hs : s.phase = .ready)
    (hxs : ∀ x ∈ xs, x.length = 16) (hbound : 16 * xs.length < Config.payloadBound)
    (is : List Instr) :
    ∃ u, execAll ((if xs = [] then [] else [.update xs.flatten]) ++ is) s = execAll is u ∧
      u.phase = .ready ∧ u.h = s.h ∧ u.y = absorb s.h s.y (xs.map (le 128)) := by
  have hlen := length_flatten_of_blocks hxs
  by_cases hnil : xs = []
  · subst hnil
    exact ⟨s, rfl, hs, rfl, rfl⟩
  · have hpos : 0 < xs.length := List.length_pos_iff.mpr hnil
    have hupdate := exec_update_of_ready hs (p := xs.flatten) (hlen ▸ hbound) (by omega) (by omega)
    rw [Laws.blocksOf_flatten hxs] at hupdate
    rw [if_neg hnil]
    exact ⟨_, execAll_cons hupdate is, hs, rfl, rfl⟩

/-- Settles O57: INIT leaves Y = 0, UPDATE absorbs the blocks, which is the closed form, and SUM
reads it out. -/
theorem polyvalComputesTheClosedForm : Obligations.PolyvalComputesTheClosedForm := by
  unfold Obligations.PolyvalComputesTheClosedForm
  intro key xs s hkey hxs hbound
  obtain ⟨-, -, hinit⟩ := initStartsAnAccumulator key s (by omega)
  obtain ⟨u, hupdate, hphase, hh, hy⟩ := execAll_update_blocks (s := { s with
    phase := .ready, h := le 128 key, y := 0, responses := s.responses ++ [.ok []] }) rfl hxs hbound
    [.sum []]
  rw [Laws.absorb_zero_eq_closedForm] at hy
  obtain ⟨-, -, -, hsum⟩ := sumReadsTheDigest [] u (by decide)
  have hrun := ((execAll_cons (hinit hkey) _).trans hupdate).trans
    (execAll_cons (hsum hphase rfl) [])
  refine ⟨_, hrun, hphase, hh, hy, ?_⟩
  rw [← hy]
  exact List.getLast?_concat

/-! ## RESTORE of a saved state -/

/-- Two states that agree on PHASE, H and Y give the same responses to every sequence of commands.
-/
theorem execCommands_of_same_registers (cs : List (Byte × Bytes))
    (hcs : ∀ c ∈ cs, c.2.length < 2 ^ 32) (hp : s.phase = t.phase) (hh : s.h = t.h)
    (hy : s.y = t.y) :
    ∃ s' t' rs, execCommands cs s = .next s' ∧ execCommands cs t = .next t' ∧
      s'.responses = s.responses ++ rs ∧ t'.responses = t.responses ++ rs := by
  induction cs generalizing s t with
  | nil => exact ⟨s, t, [], rfl, rfl, (List.append_nil _).symm, (List.append_nil _).symm⟩
  | cons c cs ih =>
    obtain ⟨op, p⟩ := c
    obtain ⟨s₁, r, hs, hr, ht⟩ := execCommand_of_same_registers (op := op)
      (hcs (op, p) List.mem_cons_self) hp hh hy
    obtain ⟨s', t', rs, hs', ht', hsresp, htresp⟩ := ih (s := s₁) (t := { t with
      phase := s₁.phase, h := s₁.h, y := s₁.y, responses := t.responses ++ [r] })
      (fun c hc => hcs c (List.mem_cons_of_mem _ hc)) rfl rfl rfl
    refine ⟨s', t', r :: rs, (execCommands_cons hs cs).trans hs',
      (execCommands_cons ht cs).trans ht', ?_, ?_⟩
    · rw [hsresp, hr, List.append_assoc, List.singleton_append]
    · rw [htresp, List.append_assoc, List.singleton_append]

/-- SAVE in READY answers the blob and changes nothing else. -/
theorem exec_save_of_ready (hs : s.phase = .ready) :
    exec (.save []) s = .next (s.emit (.ok (blobOf Config.stateTag s.h s.y))) := by
  obtain ⟨-, -, -, hsave⟩ := saveExportsTheState [] s (by decide)
  exact hsave hs rfl

/-- RESTORE of a blob loads the registers it was made from. -/
theorem exec_restore_blobOf (h y : Elem) (t : State) :
    exec (.restore (blobOf Config.stateTag h y)) t = .next ((t.load h y).emit (.ok [])) := by
  have hread := restoreImportsAState.2 (encodeElem h) (encodeElem y) t (Laws.length_encodeElem h)
    (Laws.length_encodeElem y)
  have hh : le 128 (encodeElem h) = h := Laws.decodeElem_encodeElem h
  have hy : le 128 (encodeElem y) = y := Laws.decodeElem_encodeElem y
  rw [hh, hy] at hread
  exact hread

/-- Settles O58: the blob restores PHASE, H and Y, and no command reads anything else. -/
theorem restoredStateBehavesAsSaved : Obligations.RestoredStateBehavesAsSaved := by
  unfold Obligations.RestoredStateBehavesAsSaved
  intro s t hs
  refine ⟨_, _, blobOf Config.stateTag s.h s.y, exec_save_of_ready hs, rfl,
    exec_restore_blobOf s.h s.y t, rfl, rfl, rfl, fun cs hcs => ?_, ?_⟩
  · exact execCommands_of_same_registers cs hcs hs rfl rfl
  · exact ⟨_, exec_save_of_ready rfl, rfl⟩

end Sys2Proof.Machine
end

section
/-! A command line reads back as its command (30_encoding.md rule R45, assumption 9). -/

namespace Sys2Proof.Machine

variable {op : Byte} {p : Bytes} {i : Instr} {line word tail : List Char}

/-! ## Hex -/

/-- A hex digit reads back as its value, and is neither of the characters that end a field. -/
theorem hexDigit_spec : ∀ n < 16,
    hexValue (hexDigit n) = some n ∧ hexDigit n ≠ ' ' ∧ hexDigit n ≠ ';' := by
  decide

theorem toNat_div_sixteen_lt (b : Byte) : b.toNat / 16 < 16 := by
  have hb := b.isLt
  omega

theorem byteOfHex_hexDigits (b : Byte) :
    byteOfHex (hexDigit (b.toNat / 16)) (hexDigit (b.toNat % 16)) = some b := by
  obtain ⟨hhigh, -⟩ := hexDigit_spec _ (toNat_div_sixteen_lt b)
  obtain ⟨hlow, -⟩ := hexDigit_spec _ (Nat.mod_lt b.toNat (by decide))
  simp only [byteOfHex, hhigh, hlow, Nat.div_add_mod, BitVec.ofNat_toNat, BitVec.setWidth_eq]

theorem ne_of_mem_hexByte {b : Byte} {c : Char} (h : c ∈ hexByte b) : c ≠ ' ' ∧ c ≠ ';' := by
  obtain ⟨-, hhigh⟩ := hexDigit_spec _ (toNat_div_sixteen_lt b)
  obtain ⟨-, hlow⟩ := hexDigit_spec _ (Nat.mod_lt b.toNat (by decide))
  rcases List.mem_pair.mp h with rfl | rfl
  · exact hhigh
  · exact hlow

theorem ne_of_mem_flatMap_hexByte {c : Char} (h : c ∈ p.flatMap hexByte) : c ≠ ' ' ∧ c ≠ ';' := by
  obtain ⟨b, -, hb⟩ := List.mem_flatMap.mp h
  exact ne_of_mem_hexByte hb

/-- Reading the digits of one byte, and then the rest. -/
theorem parseHex_hexByte_append (b : Byte) (cs : List Char) :
    parseHex (hexByte b ++ cs) = (parseHex cs).map (b :: ·) := by
  obtain ⟨-, hblank, -⟩ := hexDigit_spec _ (toNat_div_sixteen_lt b)
  rw [hexByte, List.cons_append, List.cons_append, List.nil_append, parseHex, if_neg hblank,
    byteOfHex_hexDigits]
  cases parseHex cs <;> rfl

theorem parseHex_flatMap_hexByte (p : Bytes) : parseHex (p.flatMap hexByte) = some p := by
  induction p with
  | nil => rfl
  | cons b p ih => rw [List.flatMap_cons, parseHex_hexByte_append, ih]; rfl

/-! ## Fields of a line -/

/-- The payload part is nothing, or a space and digits. -/
theorem hexTail_cases (p : Bytes) :
    (hexTail p = [] ∧ p = []) ∨ hexTail p = ' ' :: p.flatMap hexByte := by
  unfold hexTail
  split
  · next h => exact .inl ⟨rfl, h⟩
  · exact .inr rfl

theorem dropWhile_flatMap_hexByte (p : Bytes) :
    (p.flatMap hexByte).dropWhile (· = ' ') = p.flatMap hexByte := by
  rw [List.dropWhile_eq_self_iff]
  intro hlen
  simpa using (ne_of_mem_flatMap_hexByte (List.getElem_mem hlen)).1

theorem dropWhile_hexTail (p : Bytes) : (hexTail p).dropWhile (· = ' ') = p.flatMap hexByte := by
  rcases hexTail_cases p with ⟨h, rfl⟩ | h
  · rfl
  · rw [h, List.dropWhile_cons_of_pos (by decide), dropWhile_flatMap_hexByte]

theorem ne_semicolon_of_mem_hexTail {c : Char} (h : c ∈ hexTail p) : c ≠ ';' := by
  rcases hexTail_cases p with ⟨hnil, -⟩ | hcons
  · simp [hnil] at h
  · rcases List.mem_cons.mp (hcons ▸ h) with rfl | hmem
    · decide
    · exact (ne_of_mem_flatMap_hexByte hmem).2

/-- What may open a line: a word without a blank or a comment. -/
def isWord (word : List Char) : Bool := word ≠ [] && word.all fun c => c ≠ ' ' ∧ c ≠ ';'

theorem isWord_iff : isWord word = true ↔ word ≠ [] ∧ ∀ c ∈ word, c ≠ ' ' ∧ c ≠ ';' := by
  simp [isWord]

/-- What may follow a word: nothing, or a space and more, without a comment. -/
def IsTail (tail : List Char) : Prop :=
  (tail = [] ∨ ∃ cs, tail = ' ' :: cs) ∧ ∀ c ∈ tail, c ≠ ';'

theorem isTail_hexTail (p : Bytes) : IsTail (hexTail p) := by
  refine ⟨?_, fun c hc => ne_semicolon_of_mem_hexTail hc⟩
  rcases hexTail_cases p with ⟨h, -⟩ | h
  · exact .inl h
  · exact .inr ⟨_, h⟩

/-- Such a line has no comment and no blank before its word. -/
theorem text_of_line (hword : isWord word = true) (htail : IsTail tail) :
    ((word ++ tail).takeWhile (· ≠ ';')).dropWhile (· = ' ') = word ++ tail := by
  obtain ⟨hne, hchars⟩ := isWord_iff.mp hword
  obtain ⟨-, hcomment⟩ := htail
  have hall : (word ++ tail).takeWhile (· ≠ ';') = word ++ tail := by
    rw [List.takeWhile_eq_self_iff]
    intro c hc
    rcases List.mem_append.mp hc with hmem | hmem
    · simpa using (hchars c hmem).2
    · simpa using hcomment c hmem
  obtain ⟨c, cs, rfl⟩ := List.exists_cons_of_ne_nil hne
  obtain ⟨hblank, -⟩ := hchars c List.mem_cons_self
  rw [hall, List.cons_append, List.dropWhile_cons_of_neg (by simpa using hblank)]

theorem word_of_line (hword : isWord word = true) (htail : IsTail tail) :
    (word ++ tail).takeWhile (· ≠ ' ') = word := by
  obtain ⟨-, hchars⟩ := isWord_iff.mp hword
  rw [List.takeWhile_append_of_pos fun c hc => by simpa using (hchars c hc).1]
  obtain ⟨rfl | ⟨cs, rfl⟩, -⟩ := htail <;> simp

theorem rest_of_line (hword : isWord word = true) (htail : IsTail tail) :
    (word ++ tail).dropWhile (· ≠ ' ') = tail := by
  obtain ⟨-, hchars⟩ := isWord_iff.mp hword
  rw [List.dropWhile_append_of_pos fun c hc => by simpa using (hchars c hc).1]
  obtain ⟨rfl | ⟨cs, rfl⟩, -⟩ := htail <;> simp

/-! ## The two kinds of line -/

theorem isWord_mnemonicOf (i : Instr) : isWord (mnemonicOf i) = true := by
  cases i <;> rfl

/-- The mnemonics are eleven different words. -/
theorem opcodeOfMnemonic_mnemonicOf (i : Instr) :
    opcodeOfMnemonic (mnemonicOf i) = some i.opcode := by
  cases i <;> rfl

/-- OP is none of them. -/
theorem mnemonicOf_ne_op (i : Instr) : mnemonicOf i ≠ "OP".toList := by
  intro h
  have hopcode := opcodeOfMnemonic_mnemonicOf i
  have hnone : opcodeOfMnemonic "OP".toList = none := rfl
  rw [h, hnone] at hopcode
  cases hopcode

theorem parseLine_mnemonic (i : Instr) (p : Bytes) :
    parseLine (mnemonicOf i ++ hexTail p) = some (i.opcode, p) := by
  have hword := isWord_mnemonicOf i
  have htail := isTail_hexTail p
  simp only [parseLine, text_of_line hword htail, word_of_line hword htail,
    rest_of_line hword htail, dropWhile_hexTail, if_neg (mnemonicOf_ne_op i),
    opcodeOfMnemonic_mnemonicOf, parseHex_flatMap_hexByte]

/-- A line of an illegal opcode is the word OP and this tail. -/
def opTail (op : Byte) (p : Bytes) : List Char := ' ' :: '0' :: 'x' :: (hexByte op ++ hexTail p)

theorem isTail_opTail (op : Byte) (p : Bytes) : IsTail (opTail op p) := by
  refine ⟨.inr ⟨_, rfl⟩, fun c hc => ?_⟩
  simp only [opTail, List.mem_cons, List.mem_append] at hc
  rcases hc with rfl | rfl | rfl | hhex | hpayload
  · decide
  · decide
  · decide
  · exact (ne_of_mem_hexByte hhex).2
  · exact ne_semicolon_of_mem_hexTail hpayload

/-- The reader of bytes skips the space before the payload. -/
theorem parseHex_hexTail (p : Bytes) : parseHex (hexTail p) = some p := by
  rcases hexTail_cases p with ⟨h, rfl⟩ | h
  · rfl
  · rw [h]
    cases hdigits : p.flatMap hexByte with
    | nil =>
      have hnil := parseHex_flatMap_hexByte p
      rwa [hdigits] at hnil
    | cons c cs =>
      rw [parseHex, if_pos rfl, ← hdigits, parseHex_flatMap_hexByte]

theorem parseLine_op (hill : decodeCmd op p = .error (.illegalOp op)) :
    parseLine ("OP".toList ++ opTail op p) = some (op, p) := by
  have hword : isWord "OP".toList = true := rfl
  have htail := isTail_opTail op p
  have hrest : (opTail op p).dropWhile (· = ' ') = '0' :: 'x' :: (hexByte op ++ hexTail p) := rfl
  simp only [parseLine, text_of_line hword htail, word_of_line hword htail,
    rest_of_line hword htail, hrest, if_true, hexByte, List.cons_append, List.nil_append,
    byteOfHex_hexDigits, parseHex_hexTail, hill]

/-- Settles O8: a line is a mnemonic or OP 0xNN and the payload, and each part reads back. -/
theorem commandLineRoundTrip : Obligations.CommandLineRoundTrip := by
  unfold Obligations.CommandLineRoundTrip
  intro op p
  unfold renderCommand
  cases hdec : decodeCmd op p with
  | ok i =>
    obtain ⟨rfl, -⟩ := decodeCmd_ok.mp hdec
    exact parseLine_mnemonic i p
  | error e =>
    obtain rfl := eq_illegalOp_of_decodeCmd_error hdec
    exact parseLine_op hdec

end Sys2Proof.Machine
end
